-- ==== Sys2Proof/Word.lean ====
section
/-! DEFINITION. The word types of the LC-3 engine (spec/00_scope.md R4, R7): 16-bit words, 8-bit console bytes,
register numbers 0..7. -/

namespace Sys2Proof

/-- A register, a memory cell or an intermediate value: a 16-bit unsigned word, addition modulo 2^16 (R7). -/
abbrev Word := BitVec 16

/-- A console byte (R7, R12). -/
abbrev Byte := BitVec 8

/-- The number of a general register, R0..R7. A 3-bit selector is always valid (spec/10_state.md R20, R21). -/
abbrev RegIdx := Fin 8

end Sys2Proof
end

