-- ==== Sys2Proof/Config.lean ====
section
/-! DEFINITION. The implementation parameters the spec leaves open (spec/00_scope.md R5), with the defaults of
spec/92_eei_decisions.md. A machine state carries its parameters, so a claim over all states is a claim over all
parameter values. -/

namespace Sys2Proof

/-- The named parameters of R5, and the load-failure status of spec/60_exceptions.md R232. -/
structure Config where
  /-- `KBSR_ADDR` (D2): the address of the keyboard status cell. -/
  kbsrAddr : Word
  /-- `KBDR_ADDR` (D2): the address of the keyboard data cell. -/
  kbdrAddr : Word
  /-- `PC_START` (D8): the program counter at reset. -/
  pcStart : Word
  /-- `GPR_INIT` (D9): R0..R7 at reset. -/
  gprInit : Vector Word 8
  /-- `MEM_INIT` (D11): every cell the loader did not write. -/
  memInit : Word
  /-- `TRAP_STRING_READ_INTERCEPTS` (D14): whether PUTS and PUTSP read through the intercepting port. -/
  stringReadIntercepts : Bool
  /-- `IN_PROMPT` (D16): the bytes the IN service prints first. -/
  inPrompt : List Byte
  /-- `HALT_NOTICE` (D16): the bytes the HALT service prints. -/
  haltNotice : List Byte
  /-- `EXIT_IO_FAILURE` (D17): the exit status of FATAL(ConsoleReadFailure); non-zero. -/
  exitIoFailure : Nat
  /-- `EXIT_ABORT` (D17): the exit status of an aborted run. -/
  exitAbort : Nat
  /-- The status of a failed load, non-zero, no run (R232). -/
  exitLoadFailure : Nat
  deriving DecidableEq, Repr

/-- What the spec requires of the parameters: the two device addresses differ (spec/20_memory.md R55), and the
I/O-failure and load-failure statuses are non-zero (spec/60_exceptions.md R232). -/
abbrev Config.wf (c : Config) : Prop :=
  c.kbsrAddr ≠ c.kbdrAddr ∧ c.exitIoFailure ≠ 0 ∧ c.exitLoadFailure ≠ 0

/-- Free value (log 5): one less than `EXIT_IO_FAILURE`, of which the spec says only that it is non-zero. -/
opaque Config.freeExitIoFailure : Nat

/-- Free value (log 5): `EXIT_ABORT`, to which the spec gives no value. -/
opaque Config.freeExitAbort : Nat

/-- Free value (log 5): one less than the load-failure status, of which the spec says only that it is non-zero. -/
opaque Config.freeExitLoadFailure : Nat

/-- "Enter a character: ", the reference default of `IN_PROMPT` (D16). -/
def Config.defaultPrompt : List Byte :=
  [0x45, 0x6E, 0x74, 0x65, 0x72, 0x20, 0x61, 0x20] ++ [0x63, 0x68, 0x61, 0x72, 0x61, 0x63, 0x74, 0x65, 0x72, 0x3A, 0x20]

/-- "HALT" and a line feed, the reference default of `HALT_NOTICE` (D16). -/
def Config.defaultHaltNotice : List Byte := [0x48, 0x41, 0x4C, 0x54, 0x0A]

/-- The defaults of spec/92_eei_decisions.md: D2, D8, D9, D11, D14, D16 (log 2), and free values for D17 (log 5). -/
def Config.default : Config where
  kbsrAddr := 0xFE00
  kbdrAddr := 0xFE02
  pcStart := 0x3000
  gprInit := Vector.replicate 8 0
  memInit := 0
  stringReadIntercepts := false
  inPrompt := Config.defaultPrompt
  haltNotice := Config.defaultHaltNotice
  exitIoFailure := Config.freeExitIoFailure + 1
  exitAbort := Config.freeExitAbort
  exitLoadFailure := Config.freeExitLoadFailure + 1

end Sys2Proof
end

