-- ==== Sys2Proof/Syntax.lean ====
section
/-! DEFINITION. The instructions: one constructor for every row of spec/opcode_table.json, the alias rows
(spec/30_encoding.md R92) included. Operands are the fields of R82, R83; the bits a decoder ignores (R88) are no part
of an instruction. -/

namespace Sys2Proof

/-- The 16 opcodes of R80. -/
inductive Opcode where
  | br | add | ld | st | jsr | and | ldr | str | rti | not | ldi | sti | jmp | res | lea | trap
  deriving DecidableEq, Repr

/-- The six trap services (spec/43_trap.md R180). -/
inductive TrapService where
  | getc | out | puts | inp | putsp | halt
  deriving DecidableEq, Repr

/-- The instructions. -/
inductive Instr where
  /-- ADD, register form (R112). -/
  | addReg (dr sr1 sr2 : RegIdx)
  /-- ADD, immediate form (R113). -/
  | addImm (dr sr1 : RegIdx) (imm5 : BitVec 5)
  /-- AND, register form (R114). -/
  | andReg (dr sr1 sr2 : RegIdx)
  /-- AND, immediate form (R115). -/
  | andImm (dr sr1 : RegIdx) (imm5 : BitVec 5)
  /-- NOT (R116). -/
  | not (dr sr1 : RegIdx)
  /-- BR (R131): the mask `nzp`, n its bit 2, z its bit 1, p its bit 0. -/
  | br (nzp : BitVec 3) (off9 : BitVec 9)
  /-- JMP (R134). Words with BaseR = R7 decode to `ret`. -/
  | jmp (base : RegIdx)
  /-- RET: JMP with BaseR = R7 (R92, R134). -/
  | ret
  /-- JSR (R136). -/
  | jsr (off11 : BitVec 11)
  /-- JSRR (R138). -/
  | jsrr (base : RegIdx)
  /-- LD (R150). -/
  | ld (dr : RegIdx) (off9 : BitVec 9)
  /-- LDI (R151). -/
  | ldi (dr : RegIdx) (off9 : BitVec 9)
  /-- LDR (R152). -/
  | ldr (dr base : RegIdx) (off6 : BitVec 6)
  /-- LEA (R153). -/
  | lea (dr : RegIdx) (off9 : BitVec 9)
  /-- ST (R154). -/
  | st (sr : RegIdx) (off9 : BitVec 9)
  /-- STI (R155). -/
  | sti (sr : RegIdx) (off9 : BitVec 9)
  /-- STR (R156). -/
  | str (sr base : RegIdx) (off6 : BitVec 6)
  /-- TRAP (R180). Words with a service vector decode to the service's own constructor. -/
  | trap (vect : BitVec 8)
  /-- GETC: TRAP x20 (R181). -/
  | getc
  /-- OUT: TRAP x21 (R182). -/
  | out
  /-- PUTS: TRAP x22 (R183). -/
  | puts
  /-- IN: TRAP x23 (R184). -/
  | inp
  /-- PUTSP: TRAP x24 (R186). -/
  | putsp
  /-- HALT: TRAP x25 (R188). -/
  | halt
  /-- RTI (R210). -/
  | rti
  /-- RES (R211). -/
  | res
  deriving DecidableEq, Repr

end Sys2Proof
end

