-- ==== Sys2Proof/Machine/State.lean ====
section
/-! DEFINITION. The machine's state (spec/10_state.md), as plain data, the reasons a step can stop, and reset. -/

namespace Sys2Proof.Machine

/-- The condition code: exactly one of NEG, ZRO, POS (R22). -/
inductive Cond where
  | neg | zro | pos
  deriving DecidableEq, Repr

/-- The two unimplemented opcodes (spec/44_unimplemented.md). -/
inductive UnimplementedOp where
  | rti | res
  deriving DecidableEq, Repr

/-- The fatal reasons, each with the values spec/60_exceptions.md R220 records. -/
inductive FatalReason where
  | unimplementedOpcode (op : UnimplementedOp) (instr oldPc : Word)
  | unknownTrapVector (v : Byte) (instr oldPc : Word)
  | consoleReadFailure (oldPc : Word)
  deriving DecidableEq, Repr

/-- The engine run state (R30). -/
inductive RunState where
  | running | halted | fatal (reason : FatalReason)
  deriving DecidableEq, Repr

/-- What one `ConRead` returns once it returns (R40). End of input is a failure (D15). -/
inductive ReadReply where
  | byte (b : Byte) | failure
  deriving DecidableEq, Repr

/-- How one `ConPoll` goes: it tells whether input is pending, or fails, which reads as "no byte ready" (R40). -/
inductive PollReply where
  | answers | ioError
  deriving DecidableEq, Repr

/-- What the host does at one step boundary, or turn of an unfinished step (R40, R42; log 4). -/
inductive HostEvent where
  | quiet
  | supply (replies : List ReadReply)
  | abort
  deriving DecidableEq, Repr

/-- The console capability (R39, R40), outside the block: its coming answers as data (log 4), and what was written. -/
structure Console where
  /-- What the next `ConRead` calls return, oldest first; empty: a `ConRead` would block. -/
  pending : List ReadReply
  /-- How the next `ConPoll` calls go; past the end they answer. -/
  polls : List PollReply
  /-- The bytes written by `ConWrite`, oldest first. -/
  output : List Byte
  deriving DecidableEq, Repr

/-- A step that has not completed (R32): GETC or IN blocked in `ConRead` (R236), or a PUTS or PUTSP whose scan has met no
zero word yet and goes on at address `a` (spec/43_trap.md R185; log 9). -/
inductive UnfinishedStep where
  | getc | inp | puts (a : Word) | putsp (a : Word)
  deriving DecidableEq, Repr

/-- The memory array (R38) as its cells that differ from `MEM_INIT`, addresses strictly rising (log 1). -/
abbrev Memory := List (Nat × Word)

/-- The machine's state. -/
structure State where
  /-- The implementation parameters (spec/00_scope.md R5); no step changes them. -/
  params : Config
  /-- R0..R7 (R20). -/
  regs : Vector Word 8
  /-- The program counter (R27). -/
  pc : Word
  /-- The condition code (R22). -/
  cond : Cond
  /-- The engine run state and, when FATAL, its reason (R30). -/
  run : RunState
  /-- The memory (R38). -/
  mem : Memory
  /-- `old_pc`: where the current instruction was fetched (spec/00_scope.md R14, R28; log 3). -/
  oldPc : Word
  /-- `instr`: the word fetched (R28, spec/30_encoding.md R80; log 3). -/
  instr : Word
  /-- The console capability (R40). -/
  console : Console
  /-- The step that has begun and not completed, if one has (R32). -/
  unfinished : Option UnfinishedStep
  /-- What the host does at the coming step boundaries (R42; log 4). -/
  host : List HostEvent
  /-- What the host does once `host` is used up, over and over (log 4); empty: nothing more. -/
  hostCycle : List HostEvent
  /-- The host has ended the run: outcome ABORTED (R42). -/
  aborted : Bool
  deriving DecidableEq, Repr

/-- Why the machine takes no step. -/
inductive Fault where
  /-- Raised by `step` in run state HALTED, which takes no step (R31). Safe: the engine has stopped. -/
  | engineHalted
  /-- Raised by `step` in run state FATAL, which takes no step (R31). Safe: the engine has stopped. -/
  | engineFatal
  /-- Raised by `step` after a host abort: no further step happens (R42). Safe: the run has ended. -/
  | runAborted
  deriving DecidableEq, Repr

/-- Why an instruction has no meaning here. -/
inductive Refusal where
  /-- Raised by `exec` for an instruction with no meaning yet; no arm does. Safe. -/
  | notModelled (mnemonic : String)
  deriving DecidableEq, Repr

/-- What a meaning answers. -/
abbrev Result := Host.Outcome State Fault Refusal

/-- The state in which a run starts (spec/70_reset_and_hazards.md R250), for any parameters and any loaded memory. -/
def State.boot (p : Config) (m : Memory) : State where
  params := p
  regs := p.gprInit
  pc := p.pcStart
  cond := .zro
  run := .running
  mem := m
  oldPc := 0
  instr := 0
  console := { pending := [], polls := [], output := [] }
  unfinished := none
  host := []
  hostCycle := []
  aborted := false

/-- The machine right after reset, at the default parameters, nothing loaded (R44; logs 2, 3, 4). -/
def State.reset : State := State.boot Config.default []

end Sys2Proof.Machine
end

