-- ==== Sys2Proof/Machine/Memory.lean ====
section
/-! DEFINITION. The memory array M (spec/10_state.md R38) held as a list of (address, word) pairs in one canonical
form: addresses strictly rising, no entry equal to what an unlisted cell reads as (log 1). -/

namespace Sys2Proof.Machine

/-- The value of cell `a`; a cell that is not listed holds `init` (`MEM_INIT`, D11). -/
def Memory.read (init : Word) : Memory → Nat → Word
  | [], _ => init
  | (b, w) :: m, a => if a = b then w else Memory.read init m a

/-- Set cell `a` to `v`, keeping the canonical form: `init` is not listed. -/
def Memory.write (init : Word) : Memory → Nat → Word → Memory
  | [], a, v => if v = init then [] else [(a, v)]
  | (b, w) :: m, a, v =>
    if a < b then (if v = init then (b, w) :: m else (a, v) :: (b, w) :: m)
    else if a = b then (if v = init then m else (a, v) :: m)
    else (b, w) :: Memory.write init m a v

/-- The canonical form. -/
abbrev Memory.wf (init : Word) (m : Memory) : Prop :=
  m.Pairwise (fun c d => c.1 < d.1) ∧ ∀ c ∈ m, c.1 < 65536 ∧ c.2 ≠ init

end Sys2Proof.Machine
end

