-- ==== Sys2Proof/Machine/Ops.lean ====
section
/-! DEFINITION. The shared operations: registers, the memory ports and the keyboard (spec/20_memory.md), the console
(spec/10_state.md R40), the fetch (R28), the fatal transition and trap entry (spec/60_exceptions.md), the host's acts
at a step boundary (R42). -/

namespace Sys2Proof.Machine

/-- `x[i]` (spec/00_scope.md R10). -/
def State.reg (s : State) (r : RegIdx) : Word := s.regs[r]

/-- `x[i] <- v` (R10). No register is hard-wired (R20). -/
def State.setReg (s : State) (r : RegIdx) (v : Word) : State := { s with regs := s.regs.set r v }

/-- `pc <- target` (R10). -/
def State.setPc (s : State) (v : Word) : State := { s with pc := v }

/-- Replace the console. -/
def State.setConsole (s : State) (c : Console) : State := { s with console := c }

/-- Say which step has not completed, if one has not (R32). -/
def State.setUnfinished (s : State) (b : Option UnfinishedStep) : State := { s with unfinished := b }

/-- `zext_16` of a byte (spec/00_scope.md R8). -/
def zext (b : Byte) : Word := b.setWidth 16

/-- `v[7:0]` (R6). -/
def lowByte (v : Word) : Byte := v.extractLsb' 0 8

/-- `v[15:8]` (R6). -/
def highByte (v : Word) : Byte := v.extractLsb' 8 8

/-- `RawRead(a)`: the stored value, no side effect (spec/20_memory.md R51). -/
def rawRead (s : State) (a : Word) : Word := Memory.read s.params.memInit s.mem a.toNat

/-- `MemWrite(a, 1, v)`: a direct store at every address (R53). -/
def memWrite (s : State) (a v : Word) : State := { s with mem := Memory.write s.params.memInit s.mem a.toNat v }

/-- What the next `ConPoll` returns: whether input is pending; a failing poll returns false (spec/10_state.md R40). -/
def pollReady (s : State) : Bool :=
  match s.console.polls with
  | .ioError :: _ => false
  | .answers :: _ => !s.console.pending.isEmpty
  | [] => !s.console.pending.isEmpty

/-- `ConPoll()`: its answer, and the state after the call. It consumes no input (R40). -/
def conPoll (s : State) : Bool × State :=
  (pollReady s, s.setConsole { s.console with polls := s.console.polls.tail })

/-- `ConRead()`: the reply and the console with it consumed; `none` where the call blocks (R40). -/
def conRead (s : State) : Option (ReadReply × State) :=
  match s.console.pending with
  | [] => none
  | r :: rs => some (r, s.setConsole { s.console with pending := rs })

/-- `ConWrite` of each byte in order; it always succeeds (R40, D28). -/
def conWrite (s : State) (bs : List Byte) : State :=
  s.setConsole { s.console with output := s.console.output ++ bs }

/-- The not-ready result of a poll: KBSR cleared (R56). -/
def kbsrClear (s : State) : State := memWrite s s.params.kbsrAddr 0x0000

/-- The ready result of a poll: KBSR ready, the byte in KBDR (R56). -/
def kbsrReady (s : State) (b : Byte) : State :=
  memWrite (memWrite s s.params.kbsrAddr 0x8000) s.params.kbdrAddr (zext b)

/-- `KbsrPoll()` (R56). A read that fails after a true poll counts as a failed poll (D12); after a true poll the read
does not block. -/
def kbsrPoll (s : State) : State :=
  match conPoll s with
  | (false, s1) => kbsrClear s1
  | (true, s1) =>
    match conRead s1 with
    | some (.byte b, s2) => kbsrReady s2 b
    | some (.failure, s2) => kbsrClear s2
    | none => kbsrClear s1

/-- The state a `MemRead(a, 1)` leaves: a read of KBSR_ADDR polls first (R52). -/
def memReadState (s : State) (a : Word) : State := if a = s.params.kbsrAddr then kbsrPoll s else s

/-- `MemRead(a, 1)` (R52): the value and the state after the read. -/
def memRead (s : State) (a : Word) : Word × State := (rawRead (memReadState s a) a, memReadState s a)

/-- Fetch and increment (spec/10_state.md R28). -/
def fetch (s : State) : State :=
  { (memRead s s.pc).2 with oldPc := s.pc, instr := (memRead s s.pc).1, pc := s.pc + 1 }

/-- TAKING A FATAL EXCEPTION: `raise Fatal(reason)` sets the run state and ends the instruction (spec/00_scope.md R13).
No handler is entered, nothing else is saved, and nothing returns from it (spec/60_exceptions.md R226, R228). -/
def raiseFatal (s : State) (r : FatalReason) : State := { s with run := .fatal r }

/-- System-call entry: R7 <- the incremented pc, no setcc (spec/43_trap.md R180, spec/60_exceptions.md R227). A service
returns by leaving pc as it is (R228): there is no return operation. -/
def trapEntry (s : State) : State := s.setReg 7 s.pc

/-- `halt()` (spec/00_scope.md R13). -/
def haltEngine (s : State) : State := { s with run := .halted }

/-- A PUTS or PUTSP scan is under way (spec/43_trap.md R185). -/
def State.scanning (s : State) : Bool :=
  match s.unfinished with
  | some (.puts _) => true
  | some (.putsp _) => true
  | some .getc => false
  | some .inp => false
  | none => false

/-- One act of the host, `rest` what it does after (R42; log 4). An abort is taken between steps or in a blocked
`ConRead`; it splits no other step (spec/60_exceptions.md R225), so during a scan it stays due. -/
def hostAct (e : HostEvent) (rest : List HostEvent) (s : State) : State :=
  match e with
  | .quiet => { s with host := rest }
  | .supply rs => { s with host := rest, console := { s.console with pending := s.console.pending ++ rs } }
  | .abort => if s.scanning then { s with host := .abort :: rest } else { s with host := rest, aborted := true }

/-- What the host does at a step boundary or a turn of an unfinished step (R42; log 4): its next event, the cycle's
events once the schedule is used up. -/
def hostTurn (s : State) : State :=
  match s.host, s.hostCycle with
  | e :: rest, _ => hostAct e rest s
  | [], e :: rest => hostAct e rest s
  | [], [] => s

end Sys2Proof.Machine
end

