-- ==== Sys2Proof/Machine/Flags.lean ====
section
/-! DEFINITION. The condition code: its stored encoding, the flag derivator and the flag-setting write-back
(spec/10_state.md R22, R24; spec/40_alu.md R118). No other flag exists (R111). -/

namespace Sys2Proof.Machine

/-- The one-hot encoding of the condition code (R22, D3). -/
def Cond.bits : Cond → BitVec 3
  | .neg => 0b100
  | .zro => 0b010
  | .pos => 0b001

/-- The flag derivator: zero is checked before the sign bit (R24). -/
def condOf (v : Word) : Cond := if v = 0 then .zro else if v.getLsbD 15 then .neg else .pos

/-- `setcc(v)` (R24). -/
def setcc (s : State) (v : Word) : State := { s with cond := condOf v }

/-- `x[d] <- v; setcc(v)` (R118). -/
def writeBack (s : State) (d : RegIdx) (v : Word) : State := setcc (s.setReg d v) v

end Sys2Proof.Machine
end

