-- ==== Sys2Proof/Machine/Operands.lean ====
section
/-! DEFINITION. Immediates and the addressing-mode resolver (spec/30_encoding.md R86, R87). All additions are modulo
2^16, and `pc` is the incremented value (spec/10_state.md R28). -/

namespace Sys2Proof.Machine

/-- `sext_N` (spec/00_scope.md R9). -/
def sext {n : Nat} (v : BitVec n) : Word := v.signExtend 16

/-- PC-relative: `pc + PCoffset9` (R87). -/
def eaPcRel (s : State) (off9 : BitVec 9) : Word := s.pc + sext off9

/-- PC-relative long: `pc + PCoffset11` (R87). -/
def eaPcRelLong (s : State) (off11 : BitVec 11) : Word := s.pc + sext off11

/-- Base and offset: `x[BaseR] + offset6` (R87). -/
def eaBase (s : State) (base : RegIdx) (off6 : BitVec 6) : Word := s.reg base + sext off6

/-- Memory-indirect: `EA = MemRead(pc + PCoffset9, 1)`, and the state after the pointer read (R87). -/
def eaIndirect (s : State) (off9 : BitVec 9) : Word × State := memRead s (eaPcRel s off9)

end Sys2Proof.Machine
end

