-- ==== Sys2Proof/Machine/Control.lean ====
section
/-! DEFINITION. Control transfer: BR, JMP, RET, JSR, JSRR (spec/41_control.md). `pc` on entry is the incremented value;
no delay slots, no flags written (R130). -/

namespace Sys2Proof.Machine

/-- The branch condition: the mask and the one-hot condition code share a bit (R131, R132). -/
def branchTaken (nzp : BitVec 3) (c : Cond) : Bool := nzp &&& c.bits != 0

/-- BR (R131). -/
def execBr (nzp : BitVec 3) (off9 : BitVec 9) (s : State) : Result :=
  .next (if branchTaken nzp s.cond then s.setPc (eaPcRel s off9) else s)

/-- JMP (R134). -/
def execJmp (base : RegIdx) (s : State) : Result := .next (s.setPc (s.reg base))

/-- RET, JMP with BaseR = R7 (R134). -/
def execRet (s : State) : Result := .next (s.setPc (s.reg 7))

/-- JSR (R136). -/
def execJsr (off11 : BitVec 11) (s : State) : Result :=
  .next ((s.setReg 7 s.pc).setPc (eaPcRelLong s off11))

/-- JSRR: the base is read after the R7 write (R138, D7). -/
def execJsrr (base : RegIdx) (s : State) : Result :=
  .next ((s.setReg 7 s.pc).setPc ((s.setReg 7 s.pc).reg base))

end Sys2Proof.Machine
end

