-- ==== Sys2Proof/Machine/Operate.lean ====
section
/-! DEFINITION. The ALU and the operate instructions ADD, AND, NOT (spec/40_alu.md). -/

namespace Sys2Proof.Machine

/-- The ALU's operations (R110). -/
inductive AluOp where
  | add | and | not | pass
  deriving DecidableEq, Repr

/-- The ALU, a pure function of two words (R110, R111). -/
def alu (op : AluOp) (a b : Word) : Word :=
  match op with
  | .add => a + b
  | .and => a &&& b
  | .not => ~~~a
  | .pass => a

/-- ADD, register form (R112). -/
def execAddReg (dr sr1 sr2 : RegIdx) (s : State) : Result :=
  .next (writeBack s dr (alu .add (s.reg sr1) (s.reg sr2)))

/-- ADD, immediate form (R113). -/
def execAddImm (dr sr1 : RegIdx) (imm5 : BitVec 5) (s : State) : Result :=
  .next (writeBack s dr (alu .add (s.reg sr1) (sext imm5)))

/-- AND, register form (R114). -/
def execAndReg (dr sr1 sr2 : RegIdx) (s : State) : Result :=
  .next (writeBack s dr (alu .and (s.reg sr1) (s.reg sr2)))

/-- AND, immediate form (R115). -/
def execAndImm (dr sr1 : RegIdx) (imm5 : BitVec 5) (s : State) : Result :=
  .next (writeBack s dr (alu .and (s.reg sr1) (sext imm5)))

/-- NOT (R116). -/
def execNot (dr sr1 : RegIdx) (s : State) : Result := .next (writeBack s dr (alu .not (s.reg sr1) 0))

end Sys2Proof.Machine
end

