-- ==== Sys2Proof/Machine/LoadStore.lean ====
section
/-! DEFINITION. Loads, stores and LEA (spec/42_load_store.md). Loads read through the intercepting port, stores write
through the direct one (R149); a value reaches DR by the ALU's PASS path (spec/40_alu.md R117). -/

namespace Sys2Proof.Machine

/-- The end of a load: `v <- MemRead(ea, 1); x[DR] <- v; setcc(v)` (R150, R151, R152). -/
def loadTo (s : State) (dr : RegIdx) (ea : Word) : State :=
  writeBack (memRead s ea).2 dr (alu .pass (memRead s ea).1 0)

/-- LD (R150). -/
def execLd (dr : RegIdx) (off9 : BitVec 9) (s : State) : Result := .next (loadTo s dr (eaPcRel s off9))

/-- LDI: both reads intercept (R151). -/
def execLdi (dr : RegIdx) (off9 : BitVec 9) (s : State) : Result :=
  .next (loadTo (eaIndirect s off9).2 dr (eaIndirect s off9).1)

/-- LDR: the base is read before DR is written (R152, spec/10_state.md R33). -/
def execLdr (dr base : RegIdx) (off6 : BitVec 6) (s : State) : Result := .next (loadTo s dr (eaBase s base off6))

/-- LEA: no memory access (R153). -/
def execLea (dr : RegIdx) (off9 : BitVec 9) (s : State) : Result :=
  .next (writeBack s dr (alu .pass (eaPcRel s off9) 0))

/-- ST (R154). -/
def execSt (sr : RegIdx) (off9 : BitVec 9) (s : State) : Result :=
  .next (memWrite s (eaPcRel s off9) (s.reg sr))

/-- STI: the pointer read intercepts (R155). -/
def execSti (sr : RegIdx) (off9 : BitVec 9) (s : State) : Result :=
  .next (memWrite (eaIndirect s off9).2 (eaIndirect s off9).1 ((eaIndirect s off9).2.reg sr))

/-- STR (R156). -/
def execStr (sr base : RegIdx) (off6 : BitVec 6) (s : State) : Result :=
  .next (memWrite s (eaBase s base off6) (s.reg sr))

end Sys2Proof.Machine
end

