-- ==== Sys2Proof/WellFormed.lean ====
section
/-! DEFINITION. Which instruction terms stand for words of their own row. Field types already bound every operand
(spec/10_state.md R21); two terms are second spellings of alias rows (spec/30_encoding.md R92): JMP R7 of RET, and
TRAP with a service vector of the service. -/

namespace Sys2Proof

/-- The instruction is the canonical term of its words: not a JMP that is RET, not a TRAP that is a named service. -/
def Instr.wellFormed : Instr → Bool
  | .jmp base => base != 7
  | .trap vect => !(0x20 ≤ vect.toNat && vect.toNat ≤ 0x25)
  | .addReg _ _ _ => true
  | .addImm _ _ _ => true
  | .andReg _ _ _ => true
  | .andImm _ _ _ => true
  | .not _ _ => true
  | .br _ _ => true
  | .ret => true
  | .jsr _ => true
  | .jsrr _ => true
  | .ld _ _ => true
  | .ldi _ _ => true
  | .ldr _ _ _ => true
  | .lea _ _ => true
  | .st _ _ => true
  | .sti _ _ => true
  | .str _ _ _ => true
  | .getc => true
  | .out => true
  | .puts => true
  | .inp => true
  | .putsp => true
  | .halt => true
  | .rti => true
  | .res => true

end Sys2Proof
end

