-- ==== Sys2Proof/Decode.lean ====
section
/-! DEFINITION. The decoder and the encoder (spec/30_encoding.md). The decoder is total: each of the 65536 words
selects one case (R81), so there is no word to reject. Ignored bits are not looked at (R88). -/

namespace Sys2Proof

/-- The opcode numbers of R80. -/
def Opcode.code : Opcode → BitVec 4
  | .br => 0x0
  | .add => 0x1
  | .ld => 0x2
  | .st => 0x3
  | .jsr => 0x4
  | .and => 0x5
  | .ldr => 0x6
  | .str => 0x7
  | .rti => 0x8
  | .not => 0x9
  | .ldi => 0xA
  | .sti => 0xB
  | .jmp => 0xC
  | .res => 0xD
  | .lea => 0xE
  | .trap => 0xF

/-- The 16-case dispatch on `instr[15:12]` (R80). The last case is 0xF alone. -/
def opcodeOf (n : BitVec 4) : Opcode :=
  match n with
  | 0x0#4 => .br
  | 0x1#4 => .add
  | 0x2#4 => .ld
  | 0x3#4 => .st
  | 0x4#4 => .jsr
  | 0x5#4 => .and
  | 0x6#4 => .ldr
  | 0x7#4 => .str
  | 0x8#4 => .rti
  | 0x9#4 => .not
  | 0xA#4 => .ldi
  | 0xB#4 => .sti
  | 0xC#4 => .jmp
  | 0xD#4 => .res
  | 0xE#4 => .lea
  | _ => .trap

/-- The 3-bit register field whose lowest bit is bit `lo` (R82). -/
def regField (lo : Nat) (w : Word) : RegIdx := (w.extractLsb' lo 3).toFin

/-- A register number as a 3-bit field. -/
def regBits (r : RegIdx) : BitVec 3 := BitVec.ofFin r

/-- The vector of a trap service (spec/43_trap.md R180). -/
def TrapService.vector : TrapService → BitVec 8
  | .getc => 0x20
  | .out => 0x21
  | .puts => 0x22
  | .inp => 0x23
  | .putsp => 0x24
  | .halt => 0x25

/-- The service a trap vector selects; none outside 0x20..0x25 (R180, R187). -/
def serviceOf (v : BitVec 8) : Option TrapService :=
  match v with
  | 0x20#8 => some .getc
  | 0x21#8 => some .out
  | 0x22#8 => some .puts
  | 0x23#8 => some .inp
  | 0x24#8 => some .putsp
  | 0x25#8 => some .halt
  | _ => none

/-- A TRAP word's instruction, from its `trapvect8`: the alias of the vector (R92), or TRAP itself. -/
def decodeTrap (v : BitVec 8) : Instr :=
  match serviceOf v with
  | some .getc => .getc
  | some .out => .out
  | some .puts => .puts
  | some .inp => .inp
  | some .putsp => .putsp
  | some .halt => .halt
  | none => .trap v

/-- A JMP word's instruction: RET when BaseR = R7 (R92), JMP otherwise. -/
def decodeJmp (base : RegIdx) : Instr := if base = 7 then .ret else .jmp base

/-- The decoder: opcode from bits 15:12 (R80), fields at the places of R82, R83, mode bits as R84. -/
def decode (w : Word) : Instr :=
  match opcodeOf (w.extractLsb' 12 4) with
  | .br => .br (w.extractLsb' 9 3) (w.extractLsb' 0 9)
  | .add =>
    if w.extractLsb' 5 1 = 1#1 then .addImm (regField 9 w) (regField 6 w) (w.extractLsb' 0 5)
    else .addReg (regField 9 w) (regField 6 w) (regField 0 w)
  | .ld => .ld (regField 9 w) (w.extractLsb' 0 9)
  | .st => .st (regField 9 w) (w.extractLsb' 0 9)
  | .jsr => if w.extractLsb' 11 1 = 1#1 then .jsr (w.extractLsb' 0 11) else .jsrr (regField 6 w)
  | .and =>
    if w.extractLsb' 5 1 = 1#1 then .andImm (regField 9 w) (regField 6 w) (w.extractLsb' 0 5)
    else .andReg (regField 9 w) (regField 6 w) (regField 0 w)
  | .ldr => .ldr (regField 9 w) (regField 6 w) (w.extractLsb' 0 6)
  | .str => .str (regField 9 w) (regField 6 w) (w.extractLsb' 0 6)
  | .rti => .rti
  | .not => .not (regField 9 w) (regField 6 w)
  | .ldi => .ldi (regField 9 w) (w.extractLsb' 0 9)
  | .sti => .sti (regField 9 w) (w.extractLsb' 0 9)
  | .jmp => decodeJmp (regField 6 w)
  | .res => .res
  | .lea => .lea (regField 9 w) (w.extractLsb' 0 9)
  | .trap => decodeTrap (w.extractLsb' 0 8)

/-- A field value at its place in a word, its lowest bit at bit `lo` (R82, R83); zeros elsewhere. -/
def place {n : Nat} (lo : Nat) (v : BitVec n) : Word := v.setWidth 16 <<< lo

/-- The opcode's place, bits 15:12 (R80). -/
def placeOp (o : Opcode) : Word := place 12 o.code

/-- A register field's place (R82). -/
def placeReg (lo : Nat) (r : RegIdx) : Word := place lo (regBits r)

/-- The word of a TRAP: bits 11:8 zero, as an assembler writes them (R85; log 7). -/
def trapWord (v : BitVec 8) : Word := placeOp .trap ||| place 0 v

/-- The encoder, from the formats of R85. In ignored bits it writes what R85 says a standard assembler writes: NOT
bits 5:0 ones, all others zero (log 7). -/
def encode : Instr → Word
  | .addReg dr sr1 sr2 => placeOp .add ||| placeReg 9 dr ||| placeReg 6 sr1 ||| placeReg 0 sr2
  | .addImm dr sr1 imm5 => placeOp .add ||| placeReg 9 dr ||| placeReg 6 sr1 ||| place 5 1#1 ||| place 0 imm5
  | .andReg dr sr1 sr2 => placeOp .and ||| placeReg 9 dr ||| placeReg 6 sr1 ||| placeReg 0 sr2
  | .andImm dr sr1 imm5 => placeOp .and ||| placeReg 9 dr ||| placeReg 6 sr1 ||| place 5 1#1 ||| place 0 imm5
  | .not dr sr1 => placeOp .not ||| placeReg 9 dr ||| placeReg 6 sr1 ||| place 0 0x3F#6
  | .br nzp off9 => placeOp .br ||| place 9 nzp ||| place 0 off9
  | .jmp base => placeOp .jmp ||| placeReg 6 base
  | .ret => placeOp .jmp ||| placeReg 6 7
  | .jsr off11 => placeOp .jsr ||| place 11 1#1 ||| place 0 off11
  | .jsrr base => placeOp .jsr ||| placeReg 6 base
  | .ld dr off9 => placeOp .ld ||| placeReg 9 dr ||| place 0 off9
  | .ldi dr off9 => placeOp .ldi ||| placeReg 9 dr ||| place 0 off9
  | .ldr dr base off6 => placeOp .ldr ||| placeReg 9 dr ||| placeReg 6 base ||| place 0 off6
  | .lea dr off9 => placeOp .lea ||| placeReg 9 dr ||| place 0 off9
  | .st sr off9 => placeOp .st ||| placeReg 9 sr ||| place 0 off9
  | .sti sr off9 => placeOp .sti ||| placeReg 9 sr ||| place 0 off9
  | .str sr base off6 => placeOp .str ||| placeReg 9 sr ||| placeReg 6 base ||| place 0 off6
  | .trap v => trapWord v
  | .getc => trapWord TrapService.getc.vector
  | .out => trapWord TrapService.out.vector
  | .puts => trapWord TrapService.puts.vector
  | .inp => trapWord TrapService.inp.vector
  | .putsp => trapWord TrapService.putsp.vector
  | .halt => trapWord TrapService.halt.vector
  | .rti => placeOp .rti
  | .res => placeOp .res

/-- The bits of an instruction's words that the decoder ignores, as ones (R88). -/
def ignoredBits : Instr → Word
  | .addReg _ _ _ => 0x0018
  | .addImm _ _ _ => 0x0000
  | .andReg _ _ _ => 0x0018
  | .andImm _ _ _ => 0x0000
  | .not _ _ => 0x003F
  | .br _ _ => 0x0000
  | .jmp _ => 0x0E3F
  | .ret => 0x0E3F
  | .jsr _ => 0x0000
  | .jsrr _ => 0x063F
  | .ld _ _ => 0x0000
  | .ldi _ _ => 0x0000
  | .ldr _ _ _ => 0x0000
  | .lea _ _ => 0x0000
  | .st _ _ => 0x0000
  | .sti _ _ => 0x0000
  | .str _ _ _ => 0x0000
  | .trap _ => 0x0F00
  | .getc => 0x0F00
  | .out => 0x0F00
  | .puts => 0x0F00
  | .inp => 0x0F00
  | .putsp => 0x0F00
  | .halt => 0x0F00
  | .rti => 0x0FFF
  | .res => 0x0FFF

/-- The fixed bits of an instruction's row of spec/opcode_table.json ("mask"), as ones. -/
def rowMask : Instr → Word
  | .addReg _ _ _ => 0xF020
  | .addImm _ _ _ => 0xF020
  | .andReg _ _ _ => 0xF020
  | .andImm _ _ _ => 0xF020
  | .not _ _ => 0xF000
  | .br _ _ => 0xF000
  | .jmp _ => 0xF000
  | .ret => 0xF1C0
  | .jsr _ => 0xF800
  | .jsrr _ => 0xF800
  | .ld _ _ => 0xF000
  | .ldi _ _ => 0xF000
  | .ldr _ _ _ => 0xF000
  | .lea _ _ => 0xF000
  | .st _ _ => 0xF000
  | .sti _ _ => 0xF000
  | .str _ _ _ => 0xF000
  | .trap _ => 0xF000
  | .getc => 0xF0FF
  | .out => 0xF0FF
  | .puts => 0xF0FF
  | .inp => 0xF0FF
  | .putsp => 0xF0FF
  | .halt => 0xF0FF
  | .rti => 0xF000
  | .res => 0xF000

/-- The values of those bits in spec/opcode_table.json ("match"). -/
def rowMatch : Instr → Word
  | .addReg _ _ _ => 0x1000
  | .addImm _ _ _ => 0x1020
  | .andReg _ _ _ => 0x5000
  | .andImm _ _ _ => 0x5020
  | .not _ _ => 0x9000
  | .br _ _ => 0x0000
  | .jmp _ => 0xC000
  | .ret => 0xC1C0
  | .jsr _ => 0x4800
  | .jsrr _ => 0x4000
  | .ld _ _ => 0x2000
  | .ldi _ _ => 0xA000
  | .ldr _ _ _ => 0x6000
  | .lea _ _ => 0xE000
  | .st _ _ => 0x3000
  | .sti _ _ => 0xB000
  | .str _ _ _ => 0x7000
  | .trap _ => 0xF000
  | .getc => 0xF020
  | .out => 0xF021
  | .puts => 0xF022
  | .inp => 0xF023
  | .putsp => 0xF024
  | .halt => 0xF025
  | .rti => 0x8000
  | .res => 0xD000

/-- The decoder on a word of the opcode table: an instruction is one 16-bit word (R90), so more than 16 bits are no
instruction, and bits above `nbits` are zero. -/
def decodeTableWord (nbits w : Nat) : Option Instr :=
  if nbits ≤ 16 then some (decode (BitVec.ofNat 16 (w % 2 ^ nbits))) else none

end Sys2Proof
end

