-- ==== Sys2Proof/Machine/Trap.lean ====
section
/-! DEFINITION. TRAP and the trap dispatcher with its six services (spec/43_trap.md). A service runs inside the TRAP's
step; `pc` stays at old_pc + 1. -/

namespace Sys2Proof.Machine

/-- `x[0] <- zext_16(r); setcc(x[0])` (R181, R184), by the PASS path (spec/40_alu.md R117). -/
def inputToR0 (s : State) (b : Byte) : State := writeBack s 0 (alu .pass (zext b) 0)

/-- The read of GETC (R181), entered and re-entered while it blocks (spec/60_exceptions.md R236). -/
def getcRead (s : State) : Result :=
  match conRead s with
  | none => .next (s.setUnfinished (some .getc))
  | some (.failure, s1) => .next (raiseFatal (s1.setUnfinished none) (.consoleReadFailure s1.oldPc))
  | some (.byte b, s1) => .next (inputToR0 (s1.setUnfinished none) b)

/-- The read of IN and the echo (R184), entered and re-entered while it blocks. -/
def inpRead (s : State) : Result :=
  match conRead s with
  | none => .next (s.setUnfinished (some .inp))
  | some (.failure, s1) => .next (raiseFatal (s1.setUnfinished none) (.consoleReadFailure s1.oldPc))
  | some (.byte b, s1) => .next (inputToR0 (conWrite (s1.setUnfinished none) [b]) b)

/-- `StrRead(a)` (R185): the value and the state after the read. -/
def strRead (s : State) (a : Word) : Word × State :=
  if s.params.stringReadIntercepts then memRead s a else (rawRead s a, s)

/-- The scan loop of PUTS and PUTSP: read words from `a` on, emit each, until a zero word (R183, R186). After `fuel`
reads with no zero word it answers where the scan goes on. -/
def stringScan (emit : Word → List Byte) : Nat → State → Word → State × Option Word
  | 0, s, a => (s, some a)
  | fuel + 1, s, a =>
    if (strRead s a).1 = 0 then ((strRead s a).2, none)
    else stringScan emit fuel (conWrite (strRead s a).2 (emit (strRead s a).1)) (a + 1)

/-- One turn of a scan from `a`: at most one lap of the memory. Where a lap meets no zero word the step is not completed
and the next turn goes on (R185, spec/70_reset_and_hazards.md R262; log 9). -/
def scanTurn (emit : Word → List Byte) (mark : Word → UnfinishedStep) (a : Word) (s : State) : Result :=
  match stringScan emit 65536 s a with
  | (t, none) => .next (t.setUnfinished none)
  | (t, some b) => .next (t.setUnfinished (some (mark b)))

/-- What PUTS emits for a word: its low byte (R183). -/
def emitPuts (w : Word) : List Byte := [lowByte w]

/-- What PUTSP emits for a word: the low byte always, the high byte only if non-zero (R186). -/
def emitPutsp (w : Word) : List Byte :=
  if highByte w = 0 then [lowByte w] else [lowByte w, highByte w]

/-- A turn of PUTS from `a` (R183). -/
def putsTurn (a : Word) (s : State) : Result := scanTurn emitPuts .puts a s

/-- A turn of PUTSP from `a` (R186). -/
def putspTurn (a : Word) (s : State) : Result := scanTurn emitPutsp .putsp a s

/-- GETC (R181). -/
def getcService (s : State) : Result := getcRead s

/-- OUT (R182). -/
def outService (s : State) : Result := .next (conWrite s [lowByte (s.reg 0)])

/-- PUTS (R183). -/
def putsService (s : State) : Result := putsTurn (s.reg 0) s

/-- IN (R184): the prompt, then the read. -/
def inpService (s : State) : Result := inpRead (conWrite s s.params.inPrompt)

/-- PUTSP (R186). -/
def putspService (s : State) : Result := putspTurn (s.reg 0) s

/-- HALT (R188). -/
def haltService (s : State) : Result := .next (haltEngine (conWrite s s.params.haltNotice))

/-- The trap dispatcher: the service of the vector, or FATAL (R180, R187). -/
def dispatchTrap (v : BitVec 8) (s : State) : Result :=
  match serviceOf v with
  | some .getc => getcService s
  | some .out => outService s
  | some .puts => putsService s
  | some .inp => inpService s
  | some .putsp => putspService s
  | some .halt => haltService s
  | none => .next (raiseFatal s (.unknownTrapVector v s.instr s.oldPc))

/-- TRAP: R7 is written before the vector is looked at (R180, D21). -/
def execTrap (v : BitVec 8) (s : State) : Result := dispatchTrap v (trapEntry s)

/-- GETC, TRAP x20 (R92, R181). -/
def execGetc (s : State) : Result := getcService (trapEntry s)

/-- OUT, TRAP x21 (R92, R182). -/
def execOut (s : State) : Result := outService (trapEntry s)

/-- PUTS, TRAP x22 (R92, R183). -/
def execPuts (s : State) : Result := putsService (trapEntry s)

/-- IN, TRAP x23 (R92, R184). -/
def execInp (s : State) : Result := inpService (trapEntry s)

/-- PUTSP, TRAP x24 (R92, R186). -/
def execPutsp (s : State) : Result := putspService (trapEntry s)

/-- HALT, TRAP x25 (R92, R188). -/
def execHalt (s : State) : Result := haltService (trapEntry s)

/-- One more turn of a step that has not completed (spec/60_exceptions.md R236, R185). -/
def resumeStep (u : UnfinishedStep) (s : State) : Result :=
  match u with
  | .getc => getcRead s
  | .inp => inpRead s
  | .puts a => putsTurn a s
  | .putsp a => putspTurn a s

end Sys2Proof.Machine
end

