-- ==== Sys2Proof/Machine/Unimplemented.lean ====
section
/-! DEFINITION. The unimplemented opcodes RTI and RES: FATAL (spec/44_unimplemented.md). -/

namespace Sys2Proof.Machine

/-- RTI (R210). -/
def execRti (s : State) : Result := .next (raiseFatal s (.unimplementedOpcode .rti s.instr s.oldPc))

/-- RES (R211). -/
def execRes (s : State) : Result := .next (raiseFatal s (.unimplementedOpcode .res s.instr s.oldPc))

end Sys2Proof.Machine
end

