-- ==== Sys2Proof/Machine/Step.lean ====
section
/-! DEFINITION. The execution cycle (spec/10_state.md R31): one step fetches, increments, decodes and executes, or
carries an unfinished step on; the host may act at the boundary before it (R42). -/

namespace Sys2Proof.Machine

/-- One step. HALTED, FATAL and an aborted run take none (R31, R42). The host's next event happens first; an abort
ends the run there. -/
def step (s : State) : Host.Outcome State Fault Refusal :=
  if s.aborted then .fault .runAborted
  else match s.run with
  | .halted => .fault .engineHalted
  | .fatal _ => .fault .engineFatal
  | .running =>
    if (hostTurn s).aborted then .next (hostTurn s)
    else match (hostTurn s).unfinished with
    | some u => resumeStep u (hostTurn s)
    | none => exec (decode (fetch (hostTurn s)).instr) (fetch (hostTurn s))

/-- `s` with a word stored where the next fetch reads it: the cell at `pc` (R28), so that a running engine's next step
runs it (log 10). An instruction is one word (spec/30_encoding.md R90). -/
def State.withFetchWord (s : State) (nbits w : Nat) : State := memWrite s s.pc (BitVec.ofNat 16 (w % 2 ^ nbits))

end Sys2Proof.Machine
end

