-- ==== Sys2Proof/Machine/Loader.lean ====
section
/-! DEFINITION. What a load does to memory before the first step, and the start of a run
(spec/70_reset_and_hazards.md R251, R252). The loader itself is outside the block (spec/00_scope.md R3); this is its
effect on M, so that a run's initial states can be said. -/

namespace Sys2Proof.Machine

/-- How a load ends. `malformed`: a file of odd length or with no origin word, to which the spec gives no meaning
(U14; log 8). -/
inductive LoadResult where
  | loaded (m : Memory)
  | failed
  | malformed
  deriving DecidableEq, Repr

/-- Big-endian words of a byte sequence (R252); none for an odd length. -/
def bigEndianWords : List Byte → Option (List Word)
  | [] => some []
  | [_] => none
  | hi :: lo :: bs => (bigEndianWords bs).map (fun ws => (hi ++ lo) :: ws)

/-- Store words at consecutive addresses from `a`; a write past 0xFFFF fails, with no wrap (R252). -/
def loadWords (init : Word) : List Word → Nat → Memory → Option Memory
  | [], _, m => some m
  | w :: ws, a, m => if a ≤ 0xFFFF then loadWords init ws (a + 1) (Memory.write init m a w) else none

/-- `load` of one image: the first word is the origin, the rest are stored from there (R252). DESIGN CHOICE (log 8): an
image with only an origin word loads as a success that writes nothing, the case n = 0 of R252's pseudocode, though
spec/91_not_in_source.md N8 leaves it open. -/
def loadImage (init : Word) (image : List Byte) (m : Memory) : LoadResult :=
  match bigEndianWords image with
  | some (origin :: payload) =>
    match loadWords init payload origin.toNat m with
    | some m' => .loaded m'
    | none => .failed
  | some [] => .malformed
  | none => .malformed

/-- The images in the order given; a later one overwrites (D24). -/
def loadImages (init : Word) : List (List Byte) → Memory → LoadResult
  | [], m => .loaded m
  | image :: rest, m =>
    match loadImage init image m with
    | .loaded m' => loadImages init rest m'
    | .failed => .failed
    | .malformed => .malformed

/-- The start of a run: a state, or no run with an exit status, or a file the model gives no meaning. -/
inductive StartResult where
  | started (s : State)
  | noRun (status : Nat)
  | malformed
  deriving DecidableEq, Repr

/-- The boot sequence (R251): create memory and registers, load every image, start at PC_START; a failed load starts no
run (R232). -/
def startRun (p : Config) (images : List (List Byte)) : StartResult :=
  match loadImages p.memInit images [] with
  | .loaded m => .started (State.boot p m)
  | .failed => .noRun p.exitLoadFailure
  | .malformed => .malformed

end Sys2Proof.Machine
end

