-- ==== Sys2Proof/Machine/Status.lean ====
section
/-! DEFINITION. The status outputs of the block (spec/10_state.md R43): terminal outcome, fatal code, exit status
(spec/60_exceptions.md R220, R232). -/

namespace Sys2Proof.Machine

/-- The terminal outcomes of a run (R232). -/
inductive RunOutcome where
  | halted | fatal (reason : FatalReason) | aborted
  deriving DecidableEq, Repr

/-- How the run has ended, if it has (R30, R42). -/
def runOutcome (s : State) : Option RunOutcome :=
  match s.run with
  | .halted => some .halted
  | .fatal r => some (.fatal r)
  | .running => if s.aborted then some .aborted else none

/-- The code of a fatal reason (R220). -/
def fatalCode : FatalReason → Nat
  | .unimplementedOpcode _ _ _ => 1
  | .unknownTrapVector _ _ _ => 2
  | .consoleReadFailure _ => 3

/-- The recorded `old_pc` of a fatal reason (R220). -/
def fatalOldPc : FatalReason → Word
  | .unimplementedOpcode _ _ p => p
  | .unknownTrapVector _ _ p => p
  | .consoleReadFailure p => p

/-- The exit status of a fatal reason (R232). -/
def fatalStatus (p : Config) : FatalReason → Nat
  | .unimplementedOpcode _ _ _ => 127
  | .unknownTrapVector _ _ _ => 127
  | .consoleReadFailure _ => p.exitIoFailure

/-- The exit status of a terminal outcome (R232). -/
def outcomeStatus (p : Config) : RunOutcome → Nat
  | .halted => 0
  | .fatal r => fatalStatus p r
  | .aborted => p.exitAbort

/-- The exit status the block exposes (R43); none while the run goes on. -/
def exitStatus (s : State) : Option Nat := (runOutcome s).map (outcomeStatus s.params)

end Sys2Proof.Machine
end

