-- ==== Sys2Proof/Safety.lean ====
section
/-! DEFINITION. What counts as a good state, and the whole-machine tables of the spec that claims are stated with: who
writes which general register (spec/10_state.md R21), who writes cond (R23), where pc ends (R29), who stores where
(spec/20_memory.md R59). -/

namespace Sys2Proof.Machine

/-- The memory is in its canonical form. -/
abbrev State.MemWf (s : State) : Prop := Memory.wf s.params.memInit s.mem

/-- The good states: legal parameters, canonical memory, and the stop conditions of the spec.
- A step that has not completed belongs to a running engine, and has already written R7 (spec/10_state.md R32, R42).
- FATAL is precise: `pc` is the recorded old_pc + 1 (spec/60_exceptions.md R226).
- HALTED leaves pc and R7 at old_pc + 1 (spec/43_trap.md R188). -/
structure State.Inv (s : State) : Prop where
  params : s.params.wf
  mem : s.MemWf
  unfinished : s.unfinished ≠ none → s.run = .running ∧ s.reg 7 = s.pc ∧ s.pc = s.oldPc + 1
  fatal : ∀ r, s.run = .fatal r → fatalOldPc r = s.oldPc ∧ s.pc = s.oldPc + 1
  halted : s.run = .halted → s.reg 7 = s.pc ∧ s.pc = s.oldPc + 1

/-- The general registers an instruction may write (R21): its DR; R7 for JSR, JSRR and TRAP; R0 for GETC and IN. -/
def gprWrites : Instr → List RegIdx
  | .addReg dr _ _ => [dr]
  | .addImm dr _ _ => [dr]
  | .andReg dr _ _ => [dr]
  | .andImm dr _ _ => [dr]
  | .not dr _ => [dr]
  | .br _ _ => []
  | .jmp _ => []
  | .ret => []
  | .jsr _ => [7]
  | .jsrr _ => [7]
  | .ld dr _ => [dr]
  | .ldi dr _ => [dr]
  | .ldr dr _ _ => [dr]
  | .lea dr _ => [dr]
  | .st _ _ => []
  | .sti _ _ => []
  | .str _ _ _ => []
  | .trap v => if v = 0x20 ∨ v = 0x23 then [7, 0] else [7]
  | .getc => [7, 0]
  | .out => [7]
  | .puts => [7]
  | .inp => [7, 0]
  | .putsp => [7]
  | .halt => [7]
  | .rti => []
  | .res => []

/-- The register from whose new value an instruction sets cond; none where it writes no flag (R23). -/
def condSource : Instr → Option RegIdx
  | .addReg dr _ _ => some dr
  | .addImm dr _ _ => some dr
  | .andReg dr _ _ => some dr
  | .andImm dr _ _ => some dr
  | .not dr _ => some dr
  | .br _ _ => none
  | .jmp _ => none
  | .ret => none
  | .jsr _ => none
  | .jsrr _ => none
  | .ld dr _ => some dr
  | .ldi dr _ => some dr
  | .ldr dr _ _ => some dr
  | .lea dr _ => some dr
  | .st _ _ => none
  | .sti _ _ => none
  | .str _ _ _ => none
  | .trap v => if v = 0x20 ∨ v = 0x23 then some 0 else none
  | .getc => some 0
  | .out => none
  | .puts => none
  | .inp => some 0
  | .putsp => none
  | .halt => none
  | .rti => none
  | .res => none

/-- The truth table of the branch-condition unit (spec/41_control.md R132). -/
def maskBitOf (nzp : BitVec 3) : Cond → Bool
  | .neg => nzp.getLsbD 2
  | .zro => nzp.getLsbD 1
  | .pos => nzp.getLsbD 0

/-- Where an instruction leaves pc, from the state whose pc is already incremented (R29). -/
def pcAfter (i : Instr) (s : State) : Word :=
  match i with
  | .br nzp off9 => if maskBitOf nzp s.cond then s.pc + sext off9 else s.pc
  | .jmp base => s.reg base
  | .ret => s.reg 7
  | .jsr off11 => s.pc + sext off11
  | .jsrr base => if base = 7 then s.pc else s.reg base
  | .addReg _ _ _ => s.pc
  | .addImm _ _ _ => s.pc
  | .andReg _ _ _ => s.pc
  | .andImm _ _ _ => s.pc
  | .not _ _ => s.pc
  | .ld _ _ => s.pc
  | .ldi _ _ => s.pc
  | .ldr _ _ _ => s.pc
  | .lea _ _ => s.pc
  | .st _ _ => s.pc
  | .sti _ _ => s.pc
  | .str _ _ _ => s.pc
  | .trap _ => s.pc
  | .getc => s.pc
  | .out => s.pc
  | .puts => s.pc
  | .inp => s.pc
  | .putsp => s.pc
  | .halt => s.pc
  | .rti => s.pc
  | .res => s.pc

/-- The address an instruction stores to (spec/20_memory.md R59); none where it makes no `MemWrite`. -/
def storeAddr (i : Instr) (s : State) : Option Word :=
  match i with
  | .st _ off9 => some (eaPcRel s off9)
  | .sti _ off9 => some (eaIndirect s off9).1
  | .str _ base off6 => some (eaBase s base off6)
  | .addReg _ _ _ => none
  | .addImm _ _ _ => none
  | .andReg _ _ _ => none
  | .andImm _ _ _ => none
  | .not _ _ => none
  | .br _ _ => none
  | .jmp _ => none
  | .ret => none
  | .jsr _ => none
  | .jsrr _ => none
  | .ld _ _ => none
  | .ldi _ _ => none
  | .ldr _ _ _ => none
  | .lea _ _ => none
  | .trap _ => none
  | .getc => none
  | .out => none
  | .puts => none
  | .inp => none
  | .putsp => none
  | .halt => none
  | .rti => none
  | .res => none

/-- The addresses an instruction reads through `MemRead`, in order, beyond its fetch (spec/20_memory.md R59); the string
scans are `scansStrings`. -/
def dataReads (i : Instr) (s : State) : List Word :=
  match i with
  | .ld _ off9 => [eaPcRel s off9]
  | .ldr _ base off6 => [eaBase s base off6]
  | .ldi _ off9 => [eaPcRel s off9, (eaIndirect s off9).1]
  | .sti _ off9 => [eaPcRel s off9]
  | .addReg _ _ _ => []
  | .addImm _ _ _ => []
  | .andReg _ _ _ => []
  | .andImm _ _ _ => []
  | .not _ _ => []
  | .br _ _ => []
  | .jmp _ => []
  | .ret => []
  | .jsr _ => []
  | .jsrr _ => []
  | .lea _ _ => []
  | .st _ _ => []
  | .str _ _ _ => []
  | .trap _ => []
  | .getc => []
  | .out => []
  | .puts => []
  | .inp => []
  | .putsp => []
  | .halt => []
  | .rti => []
  | .res => []

/-- The instructions that scan a string (R59): PUTS and PUTSP. -/
def scansStrings (i : Instr) : Bool := i == .puts || i == .putsp || i == .trap 0x22 || i == .trap 0x24

/-- The instruction may poll the keyboard beyond its fetch: it reads KBSR_ADDR, or it scans a string through the
intercepting port (spec/20_memory.md R56, R59; spec/43_trap.md R189). -/
def mayPoll (i : Instr) (s : State) : Bool :=
  (dataReads i s).contains s.params.kbsrAddr || (scansStrings i && s.params.stringReadIntercepts)

/-- An answer with its condition code blanked: what is left is what something else than BR could observe (R25). -/
def blankCond : Result → Result
  | .next t => .next { t with cond := .zro }
  | .fault f => .fault f
  | .refused r => .refused r

/-- The state after the first `k` reads of a PUTS or PUTSP scan from `a`, at most a lap, what it emits left out: a read of
KBSR_ADDR polls, if string reads intercept (spec/43_trap.md R185); nothing else changes. -/
def afterScanReads (s : State) (a : Word) (k : Nat) : State :=
  if s.params.stringReadIntercepts && (s.params.kbsrAddr - a).toNat < k then kbsrPoll s else s

/-- The word that read `k` (from 0) of a scan from `a` returns (R185). -/
def scanWord (s : State) (a : Word) (k : Nat) : Word := rawRead (afterScanReads s a (k + 1)) (a + BitVec.ofNat 16 k)

/-- The scan from `a` meets its first zero word after exactly `n` other words (R183, R186). -/
def ScanEndsAfter (s : State) (a : Word) (n : Nat) : Prop :=
  n < 65536 ∧ scanWord s a n = 0 ∧ ∀ k, k < n → scanWord s a k ≠ 0

/-- A lap of the scan from `a`, all 65536 addresses, meets no zero word (R185). -/
def ScanMeetsNoZero (s : State) (a : Word) : Prop := ∀ k, k < 65536 → scanWord s a k ≠ 0

/-- The bytes the first `n` words of a scan from `a` emit, word by word. -/
def scanOutput (emit : Word → List Byte) (s : State) (a : Word) (n : Nat) : List Byte :=
  (List.range n).flatMap (fun k => emit (scanWord s a k))

/-- The state after a scan from `a` has read `r` words and emitted the first `n` of them. -/
def scannedTo (emit : Word → List Byte) (s : State) (a : Word) (r n : Nat) : State :=
  conWrite (afterScanReads s a r) (scanOutput emit s a n)

/-- What PUTS emits for a word: bits 7:0 (R183). -/
def putsBytes (w : Word) : List Byte := [w.extractLsb' 0 8]

/-- What PUTSP emits for a word: bits 7:0 always, then bits 15:8 if they are not zero (R186). -/
def putspBytes (w : Word) : List Byte :=
  w.extractLsb' 0 8 :: if w.extractLsb' 8 8 = 0 then [] else [w.extractLsb' 8 8]

/-- A console that always has another byte `b` ready: nothing is left over, polls answer, and the host supplies `b` at
every turn, for ever (log 4). -/
def AlwaysReady (s : State) (b : Byte) : Prop :=
  s.console.pending = [] ∧ s.console.polls = [] ∧ s.host = [] ∧ s.hostCycle = [.supply [.byte b]]

end Sys2Proof.Machine
end

