-- ==== Sys2Proof/Certificates/Slice0/Obligations.lean ====
section
/-! DEFINITION. The statements for the provers. An instruction's statement says which words decode to it (every
operand, every ignored bit) and what `exec` answers from every state: a next state written out, so that every field of
State not named in it is unchanged. `s.pc` is the incremented pc (spec/10_state.md R28). The clauses about
`decode` rest on the spec's own decisions: opcode numbers D1, mode-bit polarities D4 and D5, mask order D3. -/

open Sys2Proof Sys2Proof.Machine

/-! ### Encoding -/

/-- spec/30_encoding.md R85, R92: decoding what the encoder writes gives the instruction back, every operand at every
value. -/
def Obligations.DecodeOfEncodeIsIdentity : Prop :=
  ∀ i : Instr, i.wellFormed = true → decode (encode i) = i

/-- R85, R88: encoding what a word decodes to gives the word back but for the ignored bits. -/
def Obligations.EncodeOfDecodeKeepsReadBits : Prop :=
  ∀ w : Word, encode (decode w) &&& ~~~(ignoredBits (decode w)) = w &&& ~~~(ignoredBits (decode w))

/-- R88: changing ignored bits of a word changes neither the instruction it decodes to nor what that executes. -/
def Obligations.DecodeIgnoresUnusedBits : Prop :=
  ∀ w x : Word, decode (w ^^^ (x &&& ignoredBits (decode w))) = decode w ∧
    ∀ s : State, exec (decode (w ^^^ (x &&& ignoredBits (decode w)))) s = exec (decode w) s

/-- R80, R81, R89: every word has the fixed bits of the table row of the instruction it decodes to, and that instruction
is the canonical term of its words. -/
def Obligations.EveryWordLiesInItsRow : Prop :=
  ∀ w : Word, w &&& rowMask (decode w) = rowMatch (decode w) ∧ (decode w).wellFormed = true

/-- The worked words of the instruction rules, each against the instruction the rule names. -/
def Obligations.WorkedWordsDecode : Prop :=
  decode 0x1401 = .addReg 2 0 1 ∧ decode 0x127F = .addImm 1 1 (-1) ∧ decode 0x5642 = .andReg 3 1 2 ∧
  decode 0x5020 = .andImm 0 0 0 ∧ decode 0x96BF = .not 3 2 ∧ decode 0x0402 = .br 0b010 2 ∧ decode 0xC080 = .jmp 2 ∧
  decode 0xC1C0 = .ret ∧ decode 0x4804 = .jsr 4 ∧ decode 0x40C0 = .jsrr 3 ∧ decode 0x2203 = .ld 1 3 ∧
  decode 0xA413 = .ldi 2 19 ∧ decode 0x697E = .ldr 4 5 (-2) ∧ decode 0xE002 = .lea 0 2 ∧ decode 0x37FB = .st 3 (-5) ∧
  decode 0xB601 = .sti 3 1 ∧ decode 0x7D5F = .str 6 5 31 ∧ decode 0xF020 = .getc ∧ decode 0xF021 = .out ∧
  decode 0xF022 = .puts ∧ decode 0xF023 = .inp ∧ decode 0xF024 = .putsp ∧ decode 0xF125 = .halt ∧
  decode 0xF026 = .trap 0x26 ∧ decode 0x8000 = .rti ∧ decode 0xD123 = .res

/-- spec/00_scope.md R9: sign extension at the four widths, as the source's formula and as an integer. -/
def Obligations.SignExtensionIsExact : Prop :=
  (∀ v : BitVec 5, sext v = (if v.msb then v.setWidth 16 ||| (0xFFFF <<< 5) else v.setWidth 16) ∧
    (sext v).toInt = v.toInt) ∧
  (∀ v : BitVec 6, sext v = (if v.msb then v.setWidth 16 ||| (0xFFFF <<< 6) else v.setWidth 16) ∧
    (sext v).toInt = v.toInt) ∧
  (∀ v : BitVec 9, sext v = (if v.msb then v.setWidth 16 ||| (0xFFFF <<< 9) else v.setWidth 16) ∧
    (sext v).toInt = v.toInt) ∧
  (∀ v : BitVec 11, sext v = (if v.msb then v.setWidth 16 ||| (0xFFFF <<< 11) else v.setWidth 16) ∧
    (sext v).toInt = v.toInt)

/-! ### The whole machine: who writes what -/

/-- spec/10_state.md R24: setcc classifies the value by its sign and changes cond only. -/
def Obligations.SetccFollowsTheSign : Prop :=
  ∀ (s : State) (v : Word), setcc s v = { s with cond := (setcc s v).cond } ∧
    ((setcc s v).cond = .zro ↔ v = 0) ∧
    ((setcc s v).cond = .neg ↔ v ≠ 0 ∧ v.getLsbD 15 = true) ∧
    ((setcc s v).cond = .pos ↔ v ≠ 0 ∧ v.getLsbD 15 = false)

/-- R23: cond is written only by setcc of the register just written, by the listed instructions and no other; a GETC or
IN that blocks or fails has not reached its setcc (spec/43_trap.md R181, R184). -/
def Obligations.CondWrittenOnlyBySetcc : Prop :=
  ∀ (i : Instr) (s t : State), s.run = .running → s.unfinished = none → exec i s = .next t →
    match condSource i with
    | none => t.cond = s.cond
    | some d =>
      (t.run = .running ∧ t.unfinished = none → t.cond = (setcc t (t.reg d)).cond) ∧
      (¬(t.run = .running ∧ t.unfinished = none) → t.cond = s.cond)

/-- R21: no other instruction writes a general register than those listed, and no other register than the listed. -/
def Obligations.RegistersWrittenOnlyAsListed : Prop :=
  ∀ (i : Instr) (s t : State) (r : RegIdx), exec i s = .next t → r ∉ gprWrites i → t.reg r = s.reg r

/-- R29: how each instruction leaves pc. -/
def Obligations.PcAfterEachInstruction : Prop :=
  ∀ (i : Instr) (s t : State), exec i s = .next t → t.pc = pcAfter i s

/-- R25: only BR reads cond. Any other instruction, from states that differ in cond alone, answers the same but for
cond. -/
def Obligations.OnlyBranchReadsCond : Prop :=
  ∀ (i : Instr) (s : State) (c : Cond), (∀ nzp off9, i ≠ .br nzp off9) →
    blankCond (exec i { s with cond := c }) = blankCond (exec i s)

/-- spec/20_memory.md R53, R56, R59: an instruction leaves every cell as it was but the one it stores to, and KBSR and
KBDR where it polls. -/
def Obligations.MemoryChangedOnlyByStoresAndPolls : Prop :=
  ∀ (i : Instr) (s t : State) (a : Word), exec i s = .next t → storeAddr i s ≠ some a →
    (mayPoll i s = true → a ≠ s.params.kbsrAddr ∧ a ≠ s.params.kbdrAddr) → rawRead t a = rawRead s a

/-- What no instruction changes: the parameters, the latched old_pc and instr, the host's schedule; and the console's
output only grows, only by TRAP services (spec/10_state.md R40). -/
def Obligations.ConsoleWrittenOnlyByTraps : Prop :=
  ∀ (i : Instr) (s t : State), exec i s = .next t →
    t.params = s.params ∧ t.oldPc = s.oldPc ∧ t.instr = s.instr ∧ t.host = s.host ∧ t.hostCycle = s.hostCycle ∧
    t.aborted = s.aborted ∧
    (∃ bs, t.console.output = s.console.output ++ bs) ∧
    (opcodeOf ((encode i).extractLsb' 12 4) ≠ .trap → t.console.output = s.console.output ∧ t.unfinished = s.unfinished)

/-- spec/60_exceptions.md R220, R221, R225: how an instruction can leave the running state, and no other way. -/
def Obligations.OnlyListedInstructionsEndTheRun : Prop :=
  ∀ (i : Instr) (s t : State), s.run = .running → exec i s = .next t →
    t.run = .running ∨
    (t.run = .halted ∧ (i = .halt ∨ i = .trap 0x25)) ∨
    (t.run = .fatal (.unimplementedOpcode .rti s.instr s.oldPc) ∧ i = .rti) ∨
    (t.run = .fatal (.unimplementedOpcode .res s.instr s.oldPc) ∧ i = .res) ∨
    (∃ v, i = .trap v ∧ (v.toNat < 0x20 ∨ 0x25 < v.toNat) ∧
      t.run = .fatal (.unknownTrapVector v s.instr s.oldPc)) ∨
    (t.run = .fatal (.consoleReadFailure s.oldPc) ∧ s.console.pending.head? = some .failure ∧
      (i = .getc ∨ i = .inp ∨ i = .trap 0x20 ∨ i = .trap 0x23))

/-- spec/60_exceptions.md R221, spec/10_state.md R32: from every state every instruction answers a next state, and that step
is left unfinished exactly where R32 says: GETC and IN with no input, PUTS and PUTSP whose scan meets no zero word in a
lap of the memory (spec/43_trap.md R185). That an unfinished step is a state the next step takes up is the model's choice
(logs 4, 9, 12, DESIGN CHOICE). -/
def Obligations.EveryInstructionRuns : Prop :=
  ∀ (i : Instr) (s : State), ∃ t, exec i s = .next t ∧ (s.unfinished = none → (t.unfinished ≠ none ↔
    (s.console.pending = [] ∧ (i = .getc ∨ i = .inp ∨ i = .trap 0x20 ∨ i = .trap 0x23)) ∨
    (ScanMeetsNoZero s (s.reg 0) ∧ (i = .puts ∨ i = .putsp ∨ i = .trap 0x22 ∨ i = .trap 0x24))))


/-! ### Memory and the keyboard -/

/-- spec/20_memory.md R53: a write sets its cell, at every address, and has no other effect. That the list of cells stays
canonical (MemWf) is about the model's form of memory (log 1, DESIGN CHOICE). -/
def Obligations.MemWriteIsADirectStore : Prop :=
  ∀ (s : State) (a v b : Word), s.MemWf →
    memWrite s a v = { s with mem := (memWrite s a v).mem } ∧ (memWrite s a v).MemWf ∧
    rawRead (memWrite s a v) b = if b = a then v else rawRead s b

/-- spec/20_memory.md R52: a read is direct except at the keyboard-status address, where it polls first. -/
def Obligations.ReadInterceptsOnlyKbsr : Prop :=
  ∀ (s : State) (a : Word),
    (a ≠ s.params.kbsrAddr → memRead s a = (rawRead s a, s)) ∧
    memRead s s.params.kbsrAddr = (rawRead (kbsrPoll s) s.params.kbsrAddr, kbsrPoll s)

/-- R57: a read of KBDR is a plain load; it consumes no console input and does not clear KBSR. -/
def Obligations.KbdrReadIsPlain : Prop :=
  ∀ s : State, s.params.wf → memRead s s.params.kbdrAddr = (rawRead s s.params.kbdrAddr, s)

/-- R56, D12: with a byte pending and a poll that answers, KBSR reads 0x8000, KBDR receives the byte, the byte is
consumed, and nothing else changes. -/
def Obligations.KbsrPollReady : Prop :=
  ∀ (s : State) (b : Byte) (rest : List ReadReply), s.params.wf → s.MemWf →
    s.console.pending = .byte b :: rest → s.console.polls.head? ≠ some .ioError →
    rawRead (kbsrPoll s) s.params.kbsrAddr = 0x8000 ∧
    rawRead (kbsrPoll s) s.params.kbdrAddr = b.setWidth 16 ∧
    (∀ a, a ≠ s.params.kbsrAddr → a ≠ s.params.kbdrAddr → rawRead (kbsrPoll s) a = rawRead s a) ∧
    kbsrPoll s = { s with mem := (kbsrPoll s).mem, console :=
      { s.console with pending := rest, polls := s.console.polls.tail } }

/-- R56, D12: with nothing pending, a failing poll, or a read that fails after the poll, KBSR reads 0 and nothing else
in memory changes. -/
def Obligations.KbsrPollNotReady : Prop :=
  ∀ s : State, s.MemWf →
    (s.console.pending = [] ∨ s.console.polls.head? = some .ioError ∨ s.console.pending.head? = some .failure) →
    rawRead (kbsrPoll s) s.params.kbsrAddr = 0x0000 ∧
    (∀ a, a ≠ s.params.kbsrAddr → rawRead (kbsrPoll s) a = rawRead s a) ∧
    kbsrPoll s = { s with mem := (kbsrPoll s).mem, console := { s.console with
      pending := if s.console.polls.head? = some .ioError then s.console.pending else s.console.pending.tail,
      polls := s.console.polls.tail } }

/-! ### Operate instructions -/

/-- spec/40_alu.md R112. The decode clause rests on the spec's decisions D1, D4 and D6 (log 11, PRESUMED). -/
def Obligations.AddRegisterForm : Prop :=
  ∀ (s : State) (dr sr1 sr2 : RegIdx) (x : BitVec 2),
    decode (place 12 0x1#4 ||| placeReg 9 dr ||| placeReg 6 sr1 ||| place 5 0#1 ||| place 3 x ||| placeReg 0 sr2)
      = .addReg dr sr1 sr2 ∧
    exec (.addReg dr sr1 sr2) s = .next { s with
      regs := s.regs.set dr (s.reg sr1 + s.reg sr2)
      cond := (setcc s (s.reg sr1 + s.reg sr2)).cond }

/-- R113. The decode clause rests on the spec's decisions D1 and D4 (log 11, PRESUMED). -/
def Obligations.AddImmediateForm : Prop :=
  ∀ (s : State) (dr sr1 : RegIdx) (imm5 : BitVec 5),
    decode (place 12 0x1#4 ||| placeReg 9 dr ||| placeReg 6 sr1 ||| place 5 1#1 ||| place 0 imm5)
      = .addImm dr sr1 imm5 ∧
    exec (.addImm dr sr1 imm5) s = .next { s with
      regs := s.regs.set dr (s.reg sr1 + imm5.signExtend 16)
      cond := (setcc s (s.reg sr1 + imm5.signExtend 16)).cond }

/-- R114. The decode clause rests on the spec's decisions D1, D4 and D6 (log 11, PRESUMED). -/
def Obligations.AndRegisterForm : Prop :=
  ∀ (s : State) (dr sr1 sr2 : RegIdx) (x : BitVec 2),
    decode (place 12 0x5#4 ||| placeReg 9 dr ||| placeReg 6 sr1 ||| place 5 0#1 ||| place 3 x ||| placeReg 0 sr2)
      = .andReg dr sr1 sr2 ∧
    exec (.andReg dr sr1 sr2) s = .next { s with
      regs := s.regs.set dr (s.reg sr1 &&& s.reg sr2)
      cond := (setcc s (s.reg sr1 &&& s.reg sr2)).cond }

/-- R115. The decode clause rests on the spec's decisions D1 and D4 (log 11, PRESUMED). -/
def Obligations.AndImmediateForm : Prop :=
  ∀ (s : State) (dr sr1 : RegIdx) (imm5 : BitVec 5),
    decode (place 12 0x5#4 ||| placeReg 9 dr ||| placeReg 6 sr1 ||| place 5 1#1 ||| place 0 imm5)
      = .andImm dr sr1 imm5 ∧
    exec (.andImm dr sr1 imm5) s = .next { s with
      regs := s.regs.set dr (s.reg sr1 &&& imm5.signExtend 16)
      cond := (setcc s (s.reg sr1 &&& imm5.signExtend 16)).cond }

/-- R116. The decode clause rests on the spec's decisions D1 and D6 (log 11, PRESUMED). -/
def Obligations.NotComplements : Prop :=
  ∀ (s : State) (dr sr1 : RegIdx) (x : BitVec 6),
    decode (place 12 0x9#4 ||| placeReg 9 dr ||| placeReg 6 sr1 ||| place 0 x) = .not dr sr1 ∧
    exec (.not dr sr1) s = .next { s with
      regs := s.regs.set dr (~~~(s.reg sr1))
      cond := (setcc s (~~~(s.reg sr1))).cond }

/-! ### Control transfer -/

/-- spec/41_control.md R131, R132: taken exactly where the mask bit of the current flag is set; 000 never, 111 always.
Opcode number, mask order and one-hot encoding are the spec's decisions D1 and D3 (log 11, PRESUMED). -/
def Obligations.BranchFollowsItsMask : Prop :=
  ∀ (s : State) (nzp : BitVec 3) (off9 : BitVec 9),
    decode (place 12 0x0#4 ||| place 9 nzp ||| place 0 off9) = .br nzp off9 ∧
    exec (.br nzp off9) s = .next { s with
      pc := if maskBitOf nzp s.cond then s.pc + off9.signExtend 16 else s.pc } ∧
    (maskBitOf nzp s.cond = true ↔ nzp &&& s.cond.bits ≠ 0) ∧
    maskBitOf 0b000 s.cond = false ∧ maskBitOf 0b111 s.cond = true

/-- R134: JMP, and RET where the base is R7. The decode clause rests on the spec's decisions D1 and D6 (log 11,
PRESUMED); that RET is a constructor of its own is the model's choice (log 6, DESIGN CHOICE). -/
def Obligations.JumpAndReturn : Prop :=
  ∀ (s : State) (base : RegIdx) (x : BitVec 3) (y : BitVec 6),
    decode (place 12 0xC#4 ||| place 9 x ||| placeReg 6 base ||| place 0 y) = (if base = 7 then .ret else .jmp base) ∧
    exec (.jmp base) s = .next { s with pc := s.reg base } ∧
    exec .ret s = .next { s with pc := s.reg 7 }

/-- R136. The decode clause rests on the spec's decisions D1 and D5 (log 11, PRESUMED). -/
def Obligations.JsrLinksAndJumps : Prop :=
  ∀ (s : State) (off11 : BitVec 11),
    decode (place 12 0x4#4 ||| place 11 1#1 ||| place 0 off11) = .jsr off11 ∧
    exec (.jsr off11) s = .next { s with regs := s.regs.set 7 s.pc, pc := s.pc + off11.signExtend 16 }

/-- R138: the base is read after R7 is written, so JSRR R7 falls through (the spec's decision D7). The decode clause rests
on its decisions D1, D5 and D6 (log 11, PRESUMED). -/
def Obligations.JsrrReadsBaseAfterLink : Prop :=
  ∀ (s : State) (base : RegIdx) (x : BitVec 2) (y : BitVec 6),
    decode (place 12 0x4#4 ||| place 11 0#1 ||| place 9 x ||| placeReg 6 base ||| place 0 y) = .jsrr base ∧
    exec (.jsrr base) s = .next { s with
      regs := s.regs.set 7 s.pc, pc := if base = 7 then s.pc else s.reg base }

/-! ### Loads, stores, LEA. `memRead` is the port of R52 (ReadInterceptsOnlyKbsr). -/

/-- spec/42_load_store.md R150. The decode clause rests on the spec's decision D1 (log 11, PRESUMED). -/
def Obligations.LdLoadsPcRelative : Prop :=
  ∀ (s : State) (dr : RegIdx) (off9 : BitVec 9),
    decode (place 12 0x2#4 ||| placeReg 9 dr ||| place 0 off9) = .ld dr off9 ∧
    exec (.ld dr off9) s =
      (let r := memRead s (s.pc + off9.signExtend 16)
       .next { r.2 with regs := s.regs.set dr r.1, cond := (setcc s r.1).cond })

/-- R151: both reads intercept, in order. The decode clause rests on the spec's decision D1 (log 11, PRESUMED). -/
def Obligations.LdiLoadsThroughPointer : Prop :=
  ∀ (s : State) (dr : RegIdx) (off9 : BitVec 9),
    decode (place 12 0xA#4 ||| placeReg 9 dr ||| place 0 off9) = .ldi dr off9 ∧
    exec (.ldi dr off9) s =
      (let p := memRead s (s.pc + off9.signExtend 16)
       let r := memRead p.2 p.1
       .next { r.2 with regs := s.regs.set dr r.1, cond := (setcc s r.1).cond })

/-- R152. The decode clause rests on the spec's decision D1 (log 11, PRESUMED). -/
def Obligations.LdrLoadsBaseOffset : Prop :=
  ∀ (s : State) (dr base : RegIdx) (off6 : BitVec 6),
    decode (place 12 0x6#4 ||| placeReg 9 dr ||| placeReg 6 base ||| place 0 off6) = .ldr dr base off6 ∧
    exec (.ldr dr base off6) s =
      (let r := memRead s (s.reg base + off6.signExtend 16)
       .next { r.2 with regs := s.regs.set dr r.1, cond := (setcc s r.1).cond })

/-- R153: no memory access, so no poll. The decode clause rests on the spec's decision D1 (log 11, PRESUMED). -/
def Obligations.LeaLoadsTheAddress : Prop :=
  ∀ (s : State) (dr : RegIdx) (off9 : BitVec 9),
    decode (place 12 0xE#4 ||| placeReg 9 dr ||| place 0 off9) = .lea dr off9 ∧
    exec (.lea dr off9) s = .next { s with
      regs := s.regs.set dr (s.pc + off9.signExtend 16)
      cond := (setcc s (s.pc + off9.signExtend 16)).cond }

/-- R154. The decode clause rests on the spec's decision D1 (log 11, PRESUMED). -/
def Obligations.StStoresPcRelative : Prop :=
  ∀ (s : State) (sr : RegIdx) (off9 : BitVec 9),
    decode (place 12 0x3#4 ||| placeReg 9 sr ||| place 0 off9) = .st sr off9 ∧
    ∃ t, exec (.st sr off9) s = .next t ∧ t = { s with mem := t.mem } ∧
      (s.MemWf → rawRead t (eaPcRel s off9) = s.reg sr) ∧
      (∀ a, a ≠ eaPcRel s off9 → rawRead t a = rawRead s a) ∧
      eaPcRel s off9 = s.pc + off9.signExtend 16

/-- R155: the pointer read is intercepting, so the store starts from the state after it.
The decode clause rests on the spec's decision D1 (log 11, PRESUMED). -/
def Obligations.StiStoresThroughPointer : Prop :=
  ∀ (s : State) (sr : RegIdx) (off9 : BitVec 9),
    decode (place 12 0xB#4 ||| placeReg 9 sr ||| place 0 off9) = .sti sr off9 ∧
    ∃ t, exec (.sti sr off9) s = .next t ∧
      eaIndirect s off9 = memRead s (s.pc + off9.signExtend 16) ∧
      t = { (eaIndirect s off9).2 with mem := t.mem } ∧
      (s.MemWf → rawRead t (eaIndirect s off9).1 = s.reg sr) ∧
      (∀ a, a ≠ (eaIndirect s off9).1 → rawRead t a = rawRead (eaIndirect s off9).2 a)

/-- R156. The decode clause rests on the spec's decision D1 (log 11, PRESUMED). -/
def Obligations.StrStoresBaseOffset : Prop :=
  ∀ (s : State) (sr base : RegIdx) (off6 : BitVec 6),
    decode (place 12 0x7#4 ||| placeReg 9 sr ||| placeReg 6 base ||| place 0 off6) = .str sr base off6 ∧
    ∃ t, exec (.str sr base off6) s = .next t ∧ t = { s with mem := t.mem } ∧
      (s.MemWf → rawRead t (eaBase s base off6) = s.reg sr) ∧
      (∀ a, a ≠ eaBase s base off6 → rawRead t a = rawRead s a) ∧
      eaBase s base off6 = s.reg base + off6.signExtend 16

/-- spec/20_memory.md R68: a store to an address is seen by the next fetch from it, with no delay. -/
def Obligations.StoreIsSeenByNextFetch : Prop :=
  ∀ (s t : State) (i : Instr) (a : Word), s.MemWf → exec i s = .next t → storeAddr i s = some a → t.pc = a →
    a ≠ s.params.kbsrAddr →
    (fetch t).instr = (match i with | .st sr _ => s.reg sr | .sti sr _ => s.reg sr | .str sr _ _ => s.reg sr | _ => 0)

/-! ### TRAP and its services -/

/-- spec/43_trap.md R187, R180: an unknown vector is FATAL after R7 is written; cond, memory and console are as before.
The recorded values (spec/60_exceptions.md R220) are the spec's decision D25, R7 before the vector check its decision D21,
the decode clause D1 and D6 (log 11, PRESUMED). TRAP with a service vector: AliasesActAsTheirInstruction. -/
def Obligations.TrapUnknownVectorIsFatal : Prop :=
  ∀ (s : State) (v : BitVec 8) (x : BitVec 4), (v.toNat < 0x20 ∨ 0x25 < v.toNat) →
    decode (place 12 0xF#4 ||| place 8 x ||| place 0 v) = .trap v ∧
    exec (.trap v) s = .next { s with
      regs := s.regs.set 7 s.pc
      run := .fatal (.unknownTrapVector v s.instr s.oldPc) } ∧
    exitStatus { s with run := .fatal (.unknownTrapVector v s.instr s.oldPc) } = some 127

/-- spec/30_encoding.md R92: the alias rows have the effect of the instruction they name. -/
def Obligations.AliasesActAsTheirInstruction : Prop :=
  ∀ s : State, exec (.trap 0x20) s = exec .getc s ∧ exec (.trap 0x21) s = exec .out s ∧
    exec (.trap 0x22) s = exec .puts s ∧ exec (.trap 0x23) s = exec .inp s ∧
    exec (.trap 0x24) s = exec .putsp s ∧ exec (.trap 0x25) s = exec .halt s ∧ exec (.jmp 7) s = exec .ret s

/-- spec/43_trap.md R181: with a byte pending, GETC consumes it, puts it in R0 and sets cond, ZRO or POS. Byte width: the
spec's decision D15. The decode clause rests on the spec's decisions D1 and D6 (log 11,
PRESUMED) and on the alias being a constructor of its own (log 6, DESIGN CHOICE). -/
def Obligations.GetcReadsAByte : Prop :=
  ∀ (s : State) (b : Byte) (rest : List ReadReply) (x : BitVec 4),
    s.console.pending = .byte b :: rest →
    decode (place 12 0xF#4 ||| place 8 x ||| place 0 0x20#8) = .getc ∧
    exec .getc s = .next { s with
      regs := (s.regs.set 7 s.pc).set 0 (b.setWidth 16)
      cond := if b = 0 then .zro else .pos
      console := { s.console with pending := rest }
      unfinished := none }

/-- R182, with the entry of R180. The decode clause rests on the spec's decisions D1 and D6 (log 11,
PRESUMED) and on the alias being a constructor of its own (log 6, DESIGN CHOICE). -/
def Obligations.OutEmitsTheLowByte : Prop :=
  ∀ (s : State) (x : BitVec 4),
    decode (place 12 0xF#4 ||| place 8 x ||| place 0 0x21#8) = .out ∧
    exec .out s = .next { s with
      regs := s.regs.set 7 s.pc
      console := { s.console with output := s.console.output ++ [(s.reg 0).extractLsb' 0 8] } }

/-- R183, R185: PUTS emits the low byte of each word from R0 up to the first zero word, and nothing for that word.
Its reads poll at KBSR_ADDR if string reads intercept (D14), and change nothing otherwise (`afterScanReads`).
The decode clause rests on the spec's decisions D1 and D6 (log 11, PRESUMED) and on log 6 (DESIGN CHOICE). -/
def Obligations.PutsEmitsTheString : Prop :=
  ∀ (s : State) (n : Nat) (x : BitVec 4), ScanEndsAfter s (s.reg 0) n →
    decode (place 12 0xF#4 ||| place 8 x ||| place 0 0x22#8) = .puts ∧
    exec .puts s = .next { scannedTo putsBytes s (s.reg 0) (n + 1) n with
      regs := s.regs.set 7 s.pc
      unfinished := none }


/-- R184: IN prints the prompt, reads a byte, echoes it, puts it in R0 and sets cond, ZRO or POS. The prompt: D16.
The decode clause rests on the spec's decisions D1 and D6 (log 11, PRESUMED) and on the alias being a constructor of its own (log 6, DESIGN CHOICE). -/
def Obligations.InPromptsReadsAndEchoes : Prop :=
  ∀ (s : State) (b : Byte) (rest : List ReadReply) (x : BitVec 4),
    s.console.pending = .byte b :: rest →
    decode (place 12 0xF#4 ||| place 8 x ||| place 0 0x23#8) = .inp ∧
    exec .inp s = .next { s with
      regs := (s.regs.set 7 s.pc).set 0 (b.setWidth 16)
      cond := if b = 0 then .zro else .pos
      console := { s.console with pending := rest, output := s.console.output ++ s.params.inPrompt ++ [b] }
      unfinished := none }

/-- R186, R185: PUTSP emits the low byte of each word always and its high byte only if non-zero, up to the first zero
word.
Its reads poll at KBSR_ADDR if string reads intercept (D14), and change nothing otherwise (`afterScanReads`).
The decode clause rests on the spec's decisions D1 and D6 (log 11, PRESUMED) and on log 6 (DESIGN CHOICE). -/
def Obligations.PutspEmitsThePackedString : Prop :=
  ∀ (s : State) (n : Nat) (x : BitVec 4), ScanEndsAfter s (s.reg 0) n →
    decode (place 12 0xF#4 ||| place 8 x ||| place 0 0x24#8) = .putsp ∧
    exec .putsp s = .next { scannedTo putspBytes s (s.reg 0) (n + 1) n with
      regs := s.regs.set 7 s.pc
      unfinished := none }


/-- R188: HALT prints the notice (D16) and halts; pc and R7 are left at the incremented pc.
The decode clause rests on the spec's decisions D1 and D6 (log 11, PRESUMED) and on the alias being a constructor of its own (log 6, DESIGN CHOICE). -/
def Obligations.HaltPrintsAndHalts : Prop :=
  ∀ (s : State) (x : BitVec 4),
    decode (place 12 0xF#4 ||| place 8 x ||| place 0 0x25#8) = .halt ∧
    exec .halt s = .next { s with
      regs := s.regs.set 7 s.pc
      console := { s.console with output := s.console.output ++ s.params.haltNotice }
      run := .halted }

/-- R185, spec/70_reset_and_hazards.md R262: a scan that meets no zero word never ends and its output is unbounded. With
plain string reads that is where all 65536 cells are non-zero; with intercepting reads a scan needs a byte ready at
KBSR_ADDR, or it ends there. Whatever number of turns such a scan takes, no abort among them (spec/60_exceptions.md R225),
it is still unfinished and has emitted a byte or more for every word. A hang is the spec's decision D22; turns of a lap
are the model's choice (log 9, DESIGN CHOICE), the always-ready console its way to show one (log 4, DESIGN CHOICE). -/
def Obligations.StringScanHangsIffNoZeroWord : Prop :=
  ∀ s : State,
    (s.params.stringReadIntercepts = false → ∀ a, (ScanMeetsNoZero s a ↔ ∀ b, rawRead s b ≠ 0)) ∧
    (s.params.stringReadIntercepts = true → s.MemWf →
      (s.console.pending = [] ∨ s.console.polls.head? = some .ioError ∨ s.console.pending.head? = some .failure) →
      ∀ a, ¬ScanMeetsNoZero s a) ∧
    (∀ a, s.run = .running → s.aborted = false → (s.unfinished = some (.puts a) ∨ s.unfinished = some (.putsp a)) →
      ((s.params.stringReadIntercepts = false ∧ ∀ c, rawRead s c ≠ 0) ∨
        (s.params.stringReadIntercepts = true ∧ s.params.wf ∧ s.MemWf ∧ (∃ b, b ≠ 0 ∧ AlwaysReady s b) ∧
          ∀ c, c ≠ s.params.kbsrAddr → rawRead s c ≠ 0)) →
      ∀ n, ∃ t, Sys2Proof.core.run n s = .next t ∧ t.run = .running ∧ t.aborted = false ∧ t.unfinished = s.unfinished ∧
        t.reg 7 = s.reg 7 ∧ t.pc = s.pc ∧ s.console.output.length + 65536 * n ≤ t.console.output.length)


/-- R185, R262, R32: a PUTS or PUTSP whose lap meets no zero word has emitted that lap and is unfinished; a turn of an
unfinished scan ends it at its first zero word, or emits one more lap and leaves it unfinished. The turns are the model's
choice (log 9, DESIGN CHOICE); the host's act comes first (log 4, DESIGN CHOICE). -/
def Obligations.UnfinishedScanGoesOn : Prop :=
  ∀ (s : State) (a : Word) (n : Nat),
    (ScanMeetsNoZero s (s.reg 0) →
      exec .puts s = .next { scannedTo putsBytes s (s.reg 0) 65536 65536 with
        regs := s.regs.set 7 s.pc
        unfinished := some (.puts (s.reg 0)) } ∧
      exec .putsp s = .next { scannedTo putspBytes s (s.reg 0) 65536 65536 with
        regs := s.regs.set 7 s.pc
        unfinished := some (.putsp (s.reg 0)) }) ∧
    (s.run = .running → s.aborted = false → s.unfinished = some (.puts a) →
      (ScanEndsAfter (hostTurn s) a n →
        step s = .next { scannedTo putsBytes (hostTurn s) a (n + 1) n with unfinished := none }) ∧
      (ScanMeetsNoZero (hostTurn s) a → step s = .next (scannedTo putsBytes (hostTurn s) a 65536 65536))) ∧
    (s.run = .running → s.aborted = false → s.unfinished = some (.putsp a) →
      (ScanEndsAfter (hostTurn s) a n →
        step s = .next { scannedTo putspBytes (hostTurn s) a (n + 1) n with unfinished := none }) ∧
      (ScanMeetsNoZero (hostTurn s) a → step s = .next (scannedTo putspBytes (hostTurn s) a 65536 65536)))


/-- spec/60_exceptions.md R223: a read failure in GETC or IN is FATAL with R7 written, IN's prompt emitted, R0 and cond
unchanged. -/
def Obligations.ConsoleReadFailureIsFatal : Prop :=
  ∀ (s : State) (rest : List ReadReply), s.console.pending = .failure :: rest →
    exec .getc s = .next { s with
      regs := s.regs.set 7 s.pc
      console := { s.console with pending := rest }
      unfinished := none
      run := .fatal (.consoleReadFailure s.oldPc) } ∧
    exec .inp s = .next { s with
      regs := s.regs.set 7 s.pc
      console := { s.console with pending := rest, output := s.console.output ++ s.params.inPrompt }
      unfinished := none
      run := .fatal (.consoleReadFailure s.oldPc) }

/-- spec/10_state.md R32, R42: with no input, GETC and IN block with R7 already written (and IN's prompt emitted). A blocked
step is an unfinished step, the model's choice (log 4, DESIGN CHOICE). -/
def Obligations.BlockingReadsWaitForInput : Prop :=
  ∀ s : State, s.console.pending = [] →
    exec .getc s = .next { s with regs := s.regs.set 7 s.pc, unfinished := some .getc } ∧
    exec .inp s = .next { s with
      regs := s.regs.set 7 s.pc
      console := { s.console with output := s.console.output ++ s.params.inPrompt }
      unfinished := some .inp }

/-! ### Unimplemented opcodes -/

/-- spec/44_unimplemented.md R210, R211: RTI and RES, whatever their operand bits. The recorded values
(spec/60_exceptions.md R220) are the spec's decision D25; the decode clauses rest on its decisions D1 and D6 (log 11, PRESUMED). -/
def Obligations.UnimplementedOpcodesAreFatal : Prop :=
  ∀ (s : State) (x : BitVec 12),
    decode (place 12 0x8#4 ||| place 0 x) = .rti ∧
    exec .rti s = .next { s with run := .fatal (.unimplementedOpcode .rti s.instr s.oldPc) } ∧
    exitStatus { s with run := .fatal (.unimplementedOpcode .rti s.instr s.oldPc) } = some 127 ∧
    decode (place 12 0xD#4 ||| place 0 x) = .res ∧
    exec .res s = .next { s with run := .fatal (.unimplementedOpcode .res s.instr s.oldPc) } ∧
    exitStatus { s with run := .fatal (.unimplementedOpcode .res s.instr s.oldPc) } = some 127

/-! ### The step -/

/-- spec/10_state.md R28, R31: a running engine with no unfinished step runs the instruction that the word at pc decodes
to, from the state after fetch and increment. The host's act at the boundary comes first, and it is one of those written
out here (log 4, DESIGN CHOICE). -/
def Obligations.StepRunsTheDecodedInstruction : Prop :=
  ∀ (s : State) (i : Instr), s.run = .running → s.aborted = false → (hostTurn s).aborted = false →
    s.unfinished = none → decode (memRead (hostTurn s) s.pc).1 = i →
    step s = exec i { (memRead (hostTurn s) s.pc).2 with
      oldPc := s.pc, instr := (memRead (hostTurn s) s.pc).1, pc := s.pc + 1 } ∧
    (s.host = [] → s.hostCycle = [] → hostTurn s = s) ∧
    (s.host = [] → hostTurn s = hostTurn { s with host := s.hostCycle }) ∧
    (∀ rest, s.host = .quiet :: rest → hostTurn s = { s with host := rest }) ∧
    (∀ rs rest, s.host = .supply rs :: rest → hostTurn s =
      { s with host := rest, console := { s.console with pending := s.console.pending ++ rs } })


/-- R31, R42: HALTED, FATAL and an aborted run take no step. -/
def Obligations.StoppedEngineTakesNoStep : Prop :=
  ∀ s : State,
    (s.aborted = true → step s = .fault .runAborted) ∧
    (s.aborted = false → s.run = .halted → step s = .fault .engineHalted) ∧
    (∀ r, s.aborted = false → s.run = .fatal r → step s = .fault .engineFatal)

/-- R42, D20, spec/60_exceptions.md R225: a host abort ends a running run at the boundary or in a blocked read, leaving the
state the steps before it wrote; no further step happens, and the status is EXIT_ABORT. It splits no string scan: there it
stays due. The schedule and the flag are the model's (logs 4, 13, DESIGN CHOICE). -/
def Obligations.HostAbortEndsTheRun : Prop :=
  ∀ (s : State) (rest : List HostEvent), s.run = .running → s.aborted = false → s.host = .abort :: rest →
    ((s.unfinished = none ∨ s.unfinished = some .getc ∨ s.unfinished = some .inp) →
      step s = .next { s with host := rest, aborted := true } ∧
      step { s with host := rest, aborted := true } = .fault .runAborted ∧
      exitStatus { s with host := rest, aborted := true } = some s.params.exitAbort) ∧
    (∀ a, (s.unfinished = some (.puts a) ∨ s.unfinished = some (.putsp a)) → hostTurn s = s)


/-- spec/60_exceptions.md R236, R223: a blocked GETC or IN keeps all state while nothing comes, and ends at the turn in
which the host supplies a reply: with a byte the step completes, with a failure it is FATAL, R0 and cond unchanged; later
replies stay pending. (The third end, an abort, is HostAbortEndsTheRun.) The schedule is the model's (log 4, DESIGN
CHOICE). -/
def Obligations.BlockedReadCompletesOnInput : Prop :=
  ∀ (s : State) (b : Byte) (rs : List ReadReply) (rest : List HostEvent), s.run = .running → s.aborted = false →
    s.console.pending = [] →
    ((s.unfinished = some .getc ∨ s.unfinished = some .inp) →
      (s.host = [] → s.hostCycle = [] → step s = .next s) ∧
      (s.host = .quiet :: rest → step s = .next { s with host := rest }) ∧
      (s.host = .supply [] :: rest → step s = .next { s with host := rest }) ∧
      (s.host = .supply (.failure :: rs) :: rest → step s = .next { s with
        run := .fatal (.consoleReadFailure s.oldPc)
        unfinished := none
        host := rest
        console := { s.console with pending := rs } })) ∧
    (s.unfinished = some .getc → s.host = .supply (.byte b :: rs) :: rest → step s = .next { s with
      regs := s.regs.set 0 (b.setWidth 16)
      cond := if b = 0 then .zro else .pos
      unfinished := none
      host := rest
      console := { s.console with pending := rs } }) ∧
    (s.unfinished = some .inp → s.host = .supply (.byte b :: rs) :: rest → step s = .next { s with
      regs := s.regs.set 0 (b.setWidth 16)
      cond := if b = 0 then .zro else .pos
      unfinished := none
      host := rest
      console := { s.console with pending := rs, output := s.console.output ++ [b] } })


/-- R226: FATAL is precise. A step that enters FATAL from its fetch on has made only its fetch, the increment,
R7 <- old_pc + 1 (TRAP) and IN's prompt, and the recorded old_pc is the address it was fetched from. A blocked GETC or IN
that fails at a later turn (in a good state) adds nothing to what it had made when it blocked, pc and R7 at old_pc + 1. -/
def Obligations.FatalIsPrecise : Prop :=
  ∀ (s t : State) (r : FatalReason), s.run = .running → step s = .next t → t.run = .fatal r →
    (s.unfinished = none →
      fatalOldPc r = s.pc ∧ t.pc = s.pc + 1 ∧ t.cond = s.cond ∧ (∀ q, q ≠ 7 → t.reg q = s.reg q) ∧
      (t.reg 7 = s.reg 7 ∨ t.reg 7 = s.pc + 1) ∧
      (t.console.output = s.console.output ∨ t.console.output = s.console.output ++ s.params.inPrompt) ∧
      (∀ a, a ≠ s.params.kbsrAddr → a ≠ s.params.kbdrAddr → rawRead t a = rawRead s a) ∧
      (s.pc ≠ s.params.kbsrAddr → t.mem = s.mem)) ∧
    (s.Inv → s.unfinished ≠ none →
      (s.unfinished = some .getc ∨ s.unfinished = some .inp) ∧ r = .consoleReadFailure s.oldPc ∧
      s.pc = s.oldPc + 1 ∧ t.pc = s.oldPc + 1 ∧ t.reg 7 = s.oldPc + 1 ∧ t.regs = s.regs ∧ t.cond = s.cond ∧
      t.console.output = s.console.output ∧ t.mem = s.mem)


/-- R220, R232: the exit status of every terminal outcome, and the codes of the fatal reasons. -/
def Obligations.ExitStatusOfEachOutcome : Prop :=
  ∀ (s : State) (op : UnimplementedOp) (v : Byte) (w p : Word),
    (s.run = .halted → exitStatus s = some 0) ∧
    (s.run = .fatal (.unimplementedOpcode op w p) → exitStatus s = some 127) ∧
    (s.run = .fatal (.unknownTrapVector v w p) → exitStatus s = some 127) ∧
    (s.run = .fatal (.consoleReadFailure p) → exitStatus s = some s.params.exitIoFailure) ∧
    (s.run = .running → s.aborted = true → exitStatus s = some s.params.exitAbort) ∧
    (s.run = .running → s.aborted = false → exitStatus s = none) ∧
    fatalCode (.unimplementedOpcode op w p) = 1 ∧ fatalCode (.unknownTrapVector v w p) = 2 ∧
    fatalCode (.consoleReadFailure p) = 3

/-! ### Reset, boot and the invariant -/

/-- spec/70_reset_and_hazards.md R250, spec/10_state.md R44: the state at the start of a run, for every choice of the
parameters and the loaded memory, and at the spec's defaults. -/
def Obligations.ResetValues : Prop :=
  (∀ (p : Config) (m : Memory), (State.boot p m).run = .running ∧ (State.boot p m).pc = p.pcStart ∧
    (State.boot p m).regs = p.gprInit ∧ (State.boot p m).cond = .zro ∧ (State.boot p m).mem = m ∧
    (State.boot p m).unfinished = none ∧ (State.boot p m).aborted = false) ∧
  State.reset.pc = 0x3000 ∧ State.reset.cond = .zro ∧ State.reset.run = .running ∧
  (∀ r, State.reset.reg r = 0) ∧ (∀ a, rawRead State.reset a = 0)

/-- R252: loading an image stores its payload words from its origin on and alters no other cell; it fails exactly where
it would write past 0xFFFF. -/
def Obligations.LoadStoresTheImage : Prop :=
  ∀ (init : Word) (ws : List Word) (origin : Nat) (m : Memory), Memory.wf init m → origin < 65536 →
    (loadWords init ws origin m = none ↔ 65536 < origin + ws.length) ∧
    ∀ m', loadWords init ws origin m = some m' → Memory.wf init m' ∧
      ∀ a, Memory.read init m' a =
        if h : origin ≤ a ∧ a - origin < ws.length then ws[a - origin]'h.2 else Memory.read init m a

/-- The invariant holds at the start of every run with legal parameters and a canonical memory, at reset among them. -/
def Obligations.InvariantHoldsAtReset : Prop :=
  (∀ (p : Config) (m : Memory), p.wf → Memory.wf p.memInit m → (State.boot p m).Inv) ∧ State.reset.Inv

/-- Every step keeps the invariant: legal parameters, canonical memory, R7 and pc at old_pc + 1 in an unfinished step and
in HALTED, and a precise FATAL (spec/10_state.md R42, spec/43_trap.md R188, spec/60_exceptions.md R226). -/
def Obligations.StepKeepsTheInvariant : Prop :=
  ∀ s t : State, s.Inv → step s = .next t → t.Inv
end

