-- ==== Sys2Proof/Laws/Decode.lean ====
section
/-! SUPPORT. How fields are read back from words: one lemma for a field at its own place, one for a field elsewhere.
With these, decoding a placed word is a rewriting. -/

namespace Sys2Proof

@[simp] theorem extract_or (a b : Word) (lo n : Nat) :
    (a ||| b).extractLsb' lo n = a.extractLsb' lo n ||| b.extractLsb' lo n := by
  ext i hi; simp

theorem extract_place_self {n : Nat} (lo : Nat) (v : BitVec n) (h : lo + n ≤ 16) :
    (place lo v).extractLsb' lo n = v := by
  ext i hi
  have : lo + i < 16 := by omega
  simp [place, this, hi]

theorem extract_place_other {n : Nat} (lo k m : Nat) (v : BitVec n) (h : k + m ≤ lo ∨ lo + n ≤ k) :
    (place lo v).extractLsb' k m = 0 := by
  ext i hi
  simp only [place, BitVec.getElem_extractLsb', BitVec.getLsbD_shiftLeft, BitVec.getLsbD_setWidth, BitVec.getElem_zero,
    BitVec.ofNat_eq_ofNat]
  by_cases hk : k + i < lo
  · simp [hk]
  · rw [BitVec.getLsbD_of_ge v _ (by omega)]
    simp

@[simp] theorem opcodeOf_code (o : Opcode) : opcodeOf o.code = o := by cases o <;> rfl

@[simp] theorem regBits_toFin (r : RegIdx) : (regBits r).toFin = r := rfl

@[simp] theorem serviceOf_vector (t : TrapService) : serviceOf t.vector = some t := by cases t <;> rfl

end Sys2Proof
end

