-- ==== Sys2Proof/Laws/Memory.lean ====
section
/-! SUPPORT. The laws of the memory array: read after write, writes elsewhere, the canonical form is kept, and two
canonical memories that read the same are equal. -/

namespace Sys2Proof.Machine

/-- A canonical memory reads as `init` below its first listed cell. -/
theorem Memory.read_below (init : Word) (m : Memory) (a : Nat) (h : ∀ c ∈ m, a < c.1) : Memory.read init m a = init := by
  induction m with
  | nil => rfl
  | cons c m ih =>
    have h1 := h c (by simp)
    rw [Memory.read, if_neg (by omega)]
    exact ih (fun d hd => h d (List.mem_cons_of_mem _ hd))

theorem Memory.read_write_self (init : Word) (m : Memory) (a : Nat) (v : Word) (h : Memory.wf init m) :
    Memory.read init (Memory.write init m a v) a = v := by
  induction m with
  | nil => simp only [Memory.write]; split <;> simp_all [Memory.read]
  | cons c m ih =>
    obtain ⟨b, w⟩ := c
    have hm : Memory.wf init m := ⟨(List.pairwise_cons.mp h.1).2, fun c hc => h.2 c (List.mem_cons_of_mem _ hc)⟩
    have hlt : ∀ c ∈ m, b < c.1 := (List.pairwise_cons.mp h.1).1
    simp only [Memory.write]
    split
    · next hab =>
      split
      · next hv =>
        rw [Memory.read_below, hv]
        intro c hc
        rcases List.mem_cons.mp hc with rfl | hc
        · exact hab
        · have := hlt c hc; omega
      · simp [Memory.read]
    · split
      · next hab =>
        subst hab
        split
        · next hv => rw [Memory.read_below init m a hlt, hv]
        · simp [Memory.read]
      · next hab => rw [Memory.read, if_neg hab]; exact ih hm

theorem Memory.read_write_ne (init : Word) (m : Memory) {a b : Nat} (v : Word) (h : b ≠ a) :
    Memory.read init (Memory.write init m a v) b = Memory.read init m b := by
  induction m with
  | nil => simp only [Memory.write]; split <;> simp [Memory.read, h]
  | cons c m ih =>
    obtain ⟨k, w⟩ := c
    simp only [Memory.write]
    split
    · split <;> simp [Memory.read, h]
    · split
      · next hk => subst hk; split <;> simp [Memory.read, h]
      · simp only [Memory.read, ih]

/-- What a written memory lists: the written cell, or an entry it listed before. -/
theorem Memory.mem_write {init : Word} {m : Memory} {a : Nat} {v : Word} {c : Nat × Word}
    (h : c ∈ Memory.write init m a v) : (c = (a, v) ∧ v ≠ init) ∨ c ∈ m := by
  induction m with
  | nil => simp only [Memory.write] at h; split at h <;> simp_all
  | cons d m ih =>
    obtain ⟨b, w⟩ := d
    simp only [Memory.write] at h
    split at h
    · split at h <;> simp_all
    · split at h
      · split at h
        · exact Or.inr (List.mem_cons_of_mem _ h)
        · next hv =>
          rcases List.mem_cons.mp h with rfl | h
          · exact Or.inl ⟨rfl, hv⟩
          · exact Or.inr (List.mem_cons_of_mem _ h)
      · rcases List.mem_cons.mp h with rfl | h
        · simp
        · rcases ih h with h | h
          · exact Or.inl h
          · exact Or.inr (List.mem_cons_of_mem _ h)

/-- A write keeps the canonical form. -/
theorem Memory.write_wf {init : Word} {m : Memory} {a : Nat} (v : Word) (h : Memory.wf init m) (ha : a < 65536) :
    Memory.wf init (Memory.write init m a v) := by
  refine ⟨?_, fun c hc => ?_⟩
  · have hp := h.1
    clear h
    induction m with
    | nil => simp only [Memory.write]; split <;> simp
    | cons d m ih =>
      obtain ⟨b, w⟩ := d
      obtain ⟨hlt, hm⟩ := List.pairwise_cons.mp hp
      simp only [Memory.write]
      split
      · next hab =>
        split
        · exact hp
        · refine List.pairwise_cons.mpr ⟨fun c hc => ?_, hp⟩
          rcases List.mem_cons.mp hc with rfl | hc
          · exact hab
          · have := hlt c hc; simp only at *; omega
      · split
        · next hab =>
          subst hab
          split
          · exact hm
          · exact List.pairwise_cons.mpr ⟨hlt, hm⟩
        · next h1 h2 =>
          refine List.pairwise_cons.mpr ⟨fun c hc => ?_, ih hm⟩
          rcases Memory.mem_write hc with ⟨rfl, _⟩ | hc
          · simp only; omega
          · exact hlt c hc
  · rcases Memory.mem_write hc with ⟨rfl, hv⟩ | hc
    · exact ⟨ha, hv⟩
    · exact h.2 c hc

/-- A canonical memory is determined by what its 65536 cells read as, so equal memories are equal lists. -/
theorem Memory.ext_read (init : Word) (m : Memory) : ∀ n : Memory, Memory.wf init m → Memory.wf init n →
    (∀ a, a < 65536 → Memory.read init m a = Memory.read init n a) → m = n := by
  induction m with
  | nil =>
    intro n _ hn h
    cases n with
    | nil => rfl
    | cons c n =>
      exfalso
      have := h c.1 (hn.2 c (by simp)).1
      simp [Memory.read] at this
      exact (hn.2 c (by simp)).2 this.symm
  | cons c m ih =>
    intro n hm hn h
    cases n with
    | nil =>
      exfalso
      have := h c.1 (hm.2 c (by simp)).1
      simp [Memory.read] at this
      exact (hm.2 c (by simp)).2 this
    | cons d n =>
      obtain ⟨a, v⟩ := c; obtain ⟨b, w⟩ := d
      have hm' : Memory.wf init m := ⟨(List.pairwise_cons.mp hm.1).2, fun c hc => hm.2 c (List.mem_cons_of_mem _ hc)⟩
      have hn' : Memory.wf init n := ⟨(List.pairwise_cons.mp hn.1).2, fun c hc => hn.2 c (List.mem_cons_of_mem _ hc)⟩
      have ma := (List.pairwise_cons.mp hm.1).1
      have nb := (List.pairwise_cons.mp hn.1).1
      have va := hm.2 (a, v) (by simp)
      have wb := hn.2 (b, w) (by simp)
      have e1 := h a va.1
      have e2 := h b wb.1
      rcases Nat.lt_trichotomy a b with hab | hab | hab
      · exfalso
        simp [Memory.read, Nat.ne_of_lt hab] at e1
        rw [Memory.read_below init n a (fun c hc => Nat.lt_trans hab (nb c hc))] at e1
        exact va.2 e1
      · subst hab
        simp [Memory.read] at e1
        subst e1
        congr 1
        apply ih n hm' hn'
        intro x hx
        have := h x hx
        simp only [Memory.read] at this
        split at this
        · next e => subst e; rw [Memory.read_below init m x ma, Memory.read_below init n x nb]
        · exact this
      · exfalso
        simp [Memory.read, Nat.ne_of_lt hab] at e2
        rw [Memory.read_below init m b (fun c hc => Nat.lt_trans hab (ma c hc))] at e2
        exact wb.2 e2.symm

end Sys2Proof.Machine
end

