-- ==== Sys2Proof/Laws/State.lean ====
section
/-! SUPPORT. One lemma for every field of State and every basic update, each true by rfl, so that no proof unfolds a
record update; and the register file's read-after-write laws. -/

namespace Sys2Proof.Machine

/-! ### State.setReg -/
@[simp] theorem setReg_params (s : State) (r : RegIdx) (v : Word) : (State.setReg s r v).params = s.params := rfl
@[simp] theorem setReg_regs (s : State) (r : RegIdx) (v : Word) : (State.setReg s r v).regs = s.regs.set r v := rfl
@[simp] theorem setReg_pc (s : State) (r : RegIdx) (v : Word) : (State.setReg s r v).pc = s.pc := rfl
@[simp] theorem setReg_cond (s : State) (r : RegIdx) (v : Word) : (State.setReg s r v).cond = s.cond := rfl
@[simp] theorem setReg_run (s : State) (r : RegIdx) (v : Word) : (State.setReg s r v).run = s.run := rfl
@[simp] theorem setReg_mem (s : State) (r : RegIdx) (v : Word) : (State.setReg s r v).mem = s.mem := rfl
@[simp] theorem setReg_oldPc (s : State) (r : RegIdx) (v : Word) : (State.setReg s r v).oldPc = s.oldPc := rfl
@[simp] theorem setReg_instr (s : State) (r : RegIdx) (v : Word) : (State.setReg s r v).instr = s.instr := rfl
@[simp] theorem setReg_console (s : State) (r : RegIdx) (v : Word) : (State.setReg s r v).console = s.console := rfl
@[simp] theorem setReg_unfinished (s : State) (r : RegIdx) (v : Word) : (State.setReg s r v).unfinished = s.unfinished := rfl
@[simp] theorem setReg_host (s : State) (r : RegIdx) (v : Word) : (State.setReg s r v).host = s.host := rfl
@[simp] theorem setReg_hostCycle (s : State) (r : RegIdx) (v : Word) : (State.setReg s r v).hostCycle = s.hostCycle := rfl
@[simp] theorem setReg_aborted (s : State) (r : RegIdx) (v : Word) : (State.setReg s r v).aborted = s.aborted := rfl

/-! ### State.setPc -/
@[simp] theorem setPc_params (s : State) (v : Word) : (State.setPc s v).params = s.params := rfl
@[simp] theorem setPc_regs (s : State) (v : Word) : (State.setPc s v).regs = s.regs := rfl
@[simp] theorem setPc_pc (s : State) (v : Word) : (State.setPc s v).pc = v := rfl
@[simp] theorem setPc_cond (s : State) (v : Word) : (State.setPc s v).cond = s.cond := rfl
@[simp] theorem setPc_run (s : State) (v : Word) : (State.setPc s v).run = s.run := rfl
@[simp] theorem setPc_mem (s : State) (v : Word) : (State.setPc s v).mem = s.mem := rfl
@[simp] theorem setPc_oldPc (s : State) (v : Word) : (State.setPc s v).oldPc = s.oldPc := rfl
@[simp] theorem setPc_instr (s : State) (v : Word) : (State.setPc s v).instr = s.instr := rfl
@[simp] theorem setPc_console (s : State) (v : Word) : (State.setPc s v).console = s.console := rfl
@[simp] theorem setPc_unfinished (s : State) (v : Word) : (State.setPc s v).unfinished = s.unfinished := rfl
@[simp] theorem setPc_host (s : State) (v : Word) : (State.setPc s v).host = s.host := rfl
@[simp] theorem setPc_hostCycle (s : State) (v : Word) : (State.setPc s v).hostCycle = s.hostCycle := rfl
@[simp] theorem setPc_aborted (s : State) (v : Word) : (State.setPc s v).aborted = s.aborted := rfl

/-! ### State.setConsole -/
@[simp] theorem setConsole_params (s : State) (c : Console) : (State.setConsole s c).params = s.params := rfl
@[simp] theorem setConsole_regs (s : State) (c : Console) : (State.setConsole s c).regs = s.regs := rfl
@[simp] theorem setConsole_pc (s : State) (c : Console) : (State.setConsole s c).pc = s.pc := rfl
@[simp] theorem setConsole_cond (s : State) (c : Console) : (State.setConsole s c).cond = s.cond := rfl
@[simp] theorem setConsole_run (s : State) (c : Console) : (State.setConsole s c).run = s.run := rfl
@[simp] theorem setConsole_mem (s : State) (c : Console) : (State.setConsole s c).mem = s.mem := rfl
@[simp] theorem setConsole_oldPc (s : State) (c : Console) : (State.setConsole s c).oldPc = s.oldPc := rfl
@[simp] theorem setConsole_instr (s : State) (c : Console) : (State.setConsole s c).instr = s.instr := rfl
@[simp] theorem setConsole_console (s : State) (c : Console) : (State.setConsole s c).console = c := rfl
@[simp] theorem setConsole_unfinished (s : State) (c : Console) : (State.setConsole s c).unfinished = s.unfinished := rfl
@[simp] theorem setConsole_host (s : State) (c : Console) : (State.setConsole s c).host = s.host := rfl
@[simp] theorem setConsole_hostCycle (s : State) (c : Console) : (State.setConsole s c).hostCycle = s.hostCycle := rfl
@[simp] theorem setConsole_aborted (s : State) (c : Console) : (State.setConsole s c).aborted = s.aborted := rfl

/-! ### State.setUnfinished -/
@[simp] theorem setUnfinished_params (s : State) (b : Option UnfinishedStep) : (State.setUnfinished s b).params = s.params := rfl
@[simp] theorem setUnfinished_regs (s : State) (b : Option UnfinishedStep) : (State.setUnfinished s b).regs = s.regs := rfl
@[simp] theorem setUnfinished_pc (s : State) (b : Option UnfinishedStep) : (State.setUnfinished s b).pc = s.pc := rfl
@[simp] theorem setUnfinished_cond (s : State) (b : Option UnfinishedStep) : (State.setUnfinished s b).cond = s.cond := rfl
@[simp] theorem setUnfinished_run (s : State) (b : Option UnfinishedStep) : (State.setUnfinished s b).run = s.run := rfl
@[simp] theorem setUnfinished_mem (s : State) (b : Option UnfinishedStep) : (State.setUnfinished s b).mem = s.mem := rfl
@[simp] theorem setUnfinished_oldPc (s : State) (b : Option UnfinishedStep) : (State.setUnfinished s b).oldPc = s.oldPc := rfl
@[simp] theorem setUnfinished_instr (s : State) (b : Option UnfinishedStep) : (State.setUnfinished s b).instr = s.instr := rfl
@[simp] theorem setUnfinished_console (s : State) (b : Option UnfinishedStep) : (State.setUnfinished s b).console = s.console := rfl
@[simp] theorem setUnfinished_unfinished (s : State) (b : Option UnfinishedStep) : (State.setUnfinished s b).unfinished = b := rfl
@[simp] theorem setUnfinished_host (s : State) (b : Option UnfinishedStep) : (State.setUnfinished s b).host = s.host := rfl
@[simp] theorem setUnfinished_hostCycle (s : State) (b : Option UnfinishedStep) : (State.setUnfinished s b).hostCycle = s.hostCycle := rfl
@[simp] theorem setUnfinished_aborted (s : State) (b : Option UnfinishedStep) : (State.setUnfinished s b).aborted = s.aborted := rfl

/-! ### memWrite -/
@[simp] theorem memWrite_params (s : State) (a v : Word) : (memWrite s a v).params = s.params := rfl
@[simp] theorem memWrite_regs (s : State) (a v : Word) : (memWrite s a v).regs = s.regs := rfl
@[simp] theorem memWrite_pc (s : State) (a v : Word) : (memWrite s a v).pc = s.pc := rfl
@[simp] theorem memWrite_cond (s : State) (a v : Word) : (memWrite s a v).cond = s.cond := rfl
@[simp] theorem memWrite_run (s : State) (a v : Word) : (memWrite s a v).run = s.run := rfl
@[simp] theorem memWrite_mem (s : State) (a v : Word) : (memWrite s a v).mem = Memory.write s.params.memInit s.mem a.toNat v := rfl
@[simp] theorem memWrite_oldPc (s : State) (a v : Word) : (memWrite s a v).oldPc = s.oldPc := rfl
@[simp] theorem memWrite_instr (s : State) (a v : Word) : (memWrite s a v).instr = s.instr := rfl
@[simp] theorem memWrite_console (s : State) (a v : Word) : (memWrite s a v).console = s.console := rfl
@[simp] theorem memWrite_unfinished (s : State) (a v : Word) : (memWrite s a v).unfinished = s.unfinished := rfl
@[simp] theorem memWrite_host (s : State) (a v : Word) : (memWrite s a v).host = s.host := rfl
@[simp] theorem memWrite_hostCycle (s : State) (a v : Word) : (memWrite s a v).hostCycle = s.hostCycle := rfl
@[simp] theorem memWrite_aborted (s : State) (a v : Word) : (memWrite s a v).aborted = s.aborted := rfl

/-! ### setcc -/
@[simp] theorem setcc_params (s : State) (v : Word) : (setcc s v).params = s.params := rfl
@[simp] theorem setcc_regs (s : State) (v : Word) : (setcc s v).regs = s.regs := rfl
@[simp] theorem setcc_pc (s : State) (v : Word) : (setcc s v).pc = s.pc := rfl
@[simp] theorem setcc_cond (s : State) (v : Word) : (setcc s v).cond = condOf v := rfl
@[simp] theorem setcc_run (s : State) (v : Word) : (setcc s v).run = s.run := rfl
@[simp] theorem setcc_mem (s : State) (v : Word) : (setcc s v).mem = s.mem := rfl
@[simp] theorem setcc_oldPc (s : State) (v : Word) : (setcc s v).oldPc = s.oldPc := rfl
@[simp] theorem setcc_instr (s : State) (v : Word) : (setcc s v).instr = s.instr := rfl
@[simp] theorem setcc_console (s : State) (v : Word) : (setcc s v).console = s.console := rfl
@[simp] theorem setcc_unfinished (s : State) (v : Word) : (setcc s v).unfinished = s.unfinished := rfl
@[simp] theorem setcc_host (s : State) (v : Word) : (setcc s v).host = s.host := rfl
@[simp] theorem setcc_hostCycle (s : State) (v : Word) : (setcc s v).hostCycle = s.hostCycle := rfl
@[simp] theorem setcc_aborted (s : State) (v : Word) : (setcc s v).aborted = s.aborted := rfl

/-! ### raiseFatal -/
@[simp] theorem raiseFatal_params (s : State) (r : FatalReason) : (raiseFatal s r).params = s.params := rfl
@[simp] theorem raiseFatal_regs (s : State) (r : FatalReason) : (raiseFatal s r).regs = s.regs := rfl
@[simp] theorem raiseFatal_pc (s : State) (r : FatalReason) : (raiseFatal s r).pc = s.pc := rfl
@[simp] theorem raiseFatal_cond (s : State) (r : FatalReason) : (raiseFatal s r).cond = s.cond := rfl
@[simp] theorem raiseFatal_run (s : State) (r : FatalReason) : (raiseFatal s r).run = .fatal r := rfl
@[simp] theorem raiseFatal_mem (s : State) (r : FatalReason) : (raiseFatal s r).mem = s.mem := rfl
@[simp] theorem raiseFatal_oldPc (s : State) (r : FatalReason) : (raiseFatal s r).oldPc = s.oldPc := rfl
@[simp] theorem raiseFatal_instr (s : State) (r : FatalReason) : (raiseFatal s r).instr = s.instr := rfl
@[simp] theorem raiseFatal_console (s : State) (r : FatalReason) : (raiseFatal s r).console = s.console := rfl
@[simp] theorem raiseFatal_unfinished (s : State) (r : FatalReason) : (raiseFatal s r).unfinished = s.unfinished := rfl
@[simp] theorem raiseFatal_host (s : State) (r : FatalReason) : (raiseFatal s r).host = s.host := rfl
@[simp] theorem raiseFatal_hostCycle (s : State) (r : FatalReason) : (raiseFatal s r).hostCycle = s.hostCycle := rfl
@[simp] theorem raiseFatal_aborted (s : State) (r : FatalReason) : (raiseFatal s r).aborted = s.aborted := rfl

/-! ### haltEngine -/
@[simp] theorem haltEngine_params (s : State) : (haltEngine s).params = s.params := rfl
@[simp] theorem haltEngine_regs (s : State) : (haltEngine s).regs = s.regs := rfl
@[simp] theorem haltEngine_pc (s : State) : (haltEngine s).pc = s.pc := rfl
@[simp] theorem haltEngine_cond (s : State) : (haltEngine s).cond = s.cond := rfl
@[simp] theorem haltEngine_run (s : State) : (haltEngine s).run = .halted := rfl
@[simp] theorem haltEngine_mem (s : State) : (haltEngine s).mem = s.mem := rfl
@[simp] theorem haltEngine_oldPc (s : State) : (haltEngine s).oldPc = s.oldPc := rfl
@[simp] theorem haltEngine_instr (s : State) : (haltEngine s).instr = s.instr := rfl
@[simp] theorem haltEngine_console (s : State) : (haltEngine s).console = s.console := rfl
@[simp] theorem haltEngine_unfinished (s : State) : (haltEngine s).unfinished = s.unfinished := rfl
@[simp] theorem haltEngine_host (s : State) : (haltEngine s).host = s.host := rfl
@[simp] theorem haltEngine_hostCycle (s : State) : (haltEngine s).hostCycle = s.hostCycle := rfl
@[simp] theorem haltEngine_aborted (s : State) : (haltEngine s).aborted = s.aborted := rfl

/-! ### conWrite -/
@[simp] theorem conWrite_params (s : State) (bs : List Byte) : (conWrite s bs).params = s.params := rfl
@[simp] theorem conWrite_regs (s : State) (bs : List Byte) : (conWrite s bs).regs = s.regs := rfl
@[simp] theorem conWrite_pc (s : State) (bs : List Byte) : (conWrite s bs).pc = s.pc := rfl
@[simp] theorem conWrite_cond (s : State) (bs : List Byte) : (conWrite s bs).cond = s.cond := rfl
@[simp] theorem conWrite_run (s : State) (bs : List Byte) : (conWrite s bs).run = s.run := rfl
@[simp] theorem conWrite_mem (s : State) (bs : List Byte) : (conWrite s bs).mem = s.mem := rfl
@[simp] theorem conWrite_oldPc (s : State) (bs : List Byte) : (conWrite s bs).oldPc = s.oldPc := rfl
@[simp] theorem conWrite_instr (s : State) (bs : List Byte) : (conWrite s bs).instr = s.instr := rfl
@[simp] theorem conWrite_console (s : State) (bs : List Byte) : (conWrite s bs).console = { s.console with output := s.console.output ++ bs } := rfl
@[simp] theorem conWrite_unfinished (s : State) (bs : List Byte) : (conWrite s bs).unfinished = s.unfinished := rfl
@[simp] theorem conWrite_host (s : State) (bs : List Byte) : (conWrite s bs).host = s.host := rfl
@[simp] theorem conWrite_hostCycle (s : State) (bs : List Byte) : (conWrite s bs).hostCycle = s.hostCycle := rfl
@[simp] theorem conWrite_aborted (s : State) (bs : List Byte) : (conWrite s bs).aborted = s.aborted := rfl

/-! ### The register file -/

@[simp] theorem reg_setReg_self (s : State) (r : RegIdx) (v : Word) : (s.setReg r v).reg r = v := by
  simp [State.reg]

theorem reg_setReg_ne (s : State) {r q : RegIdx} (v : Word) (h : q ≠ r) : (s.setReg r v).reg q = s.reg q := by
  have h' : r.val ≠ q.val := fun e => h (Fin.ext e.symm)
  simp [State.reg, h']

theorem reg_setReg (s : State) (r q : RegIdx) (v : Word) :
    (s.setReg r v).reg q = if q = r then v else s.reg q := by
  split
  · next h => subst h; simp
  · next h => exact reg_setReg_ne s v h

/-- Registers agree as soon as the register files do. -/
theorem reg_congr {s t : State} (h : t.regs = s.regs) (r : RegIdx) : t.reg r = s.reg r := by
  simp [State.reg, h]

@[simp] theorem reg_setPc (s : State) (v : Word) (q : RegIdx) : (State.setPc s v).reg q = s.reg q := rfl
@[simp] theorem reg_setConsole (s : State) (c : Console) (q : RegIdx) : (State.setConsole s c).reg q = s.reg q := rfl
@[simp] theorem reg_setUnfinished (s : State) (b : Option UnfinishedStep) (q : RegIdx) : (State.setUnfinished s b).reg q = s.reg q := rfl
@[simp] theorem reg_memWrite (s : State) (a v : Word) (q : RegIdx) : (memWrite s a v).reg q = s.reg q := rfl
@[simp] theorem reg_setcc (s : State) (v : Word) (q : RegIdx) : (setcc s v).reg q = s.reg q := rfl
@[simp] theorem reg_raiseFatal (s : State) (r : FatalReason) (q : RegIdx) : (raiseFatal s r).reg q = s.reg q := rfl
@[simp] theorem reg_haltEngine (s : State) (q : RegIdx) : (haltEngine s).reg q = s.reg q := rfl
@[simp] theorem reg_conWrite (s : State) (bs : List Byte) (q : RegIdx) : (conWrite s bs).reg q = s.reg q := rfl

end Sys2Proof.Machine
end

