-- ==== Sys2Proof/Laws/Ops.lean ====
section
/-! SUPPORT. One lemma for each shared operation, saying what it can do: the keyboard poll and the read port touch
memory and console only; the fetch; the blocking reads; the string scan. Provers cite these instead of unfolding. -/

namespace Sys2Proof.Machine

/-- The word of the memory at `a` after a write, whatever the address. -/
theorem rawRead_memWrite_ne (s : State) {a b : Word} (v : Word) (h : b ≠ a) :
    rawRead (memWrite s a v) b = rawRead s b :=
  Memory.read_write_ne _ _ _ (fun e => h (BitVec.eq_of_toNat_eq e))

theorem rawRead_memWrite_self (s : State) (a v : Word) (h : Memory.wf s.params.memInit s.mem) :
    rawRead (memWrite s a v) a = v :=
  Memory.read_write_self _ _ _ _ h

theorem memWrite_wf (s : State) (a v : Word) (h : Memory.wf s.params.memInit s.mem) :
    Memory.wf (memWrite s a v).params.memInit (memWrite s a v).mem :=
  Memory.write_wf v h a.isLt

/-- States that differ in nothing but memory and console: what a keyboard poll can change (R56). -/
structure SameButMemConsole (s t : State) : Prop where
  params : t.params = s.params
  regs : t.regs = s.regs
  pc : t.pc = s.pc
  cond : t.cond = s.cond
  run : t.run = s.run
  oldPc : t.oldPc = s.oldPc
  instr : t.instr = s.instr
  unfinished : t.unfinished = s.unfinished
  host : t.host = s.host
  hostCycle : t.hostCycle = s.hostCycle
  aborted : t.aborted = s.aborted

theorem SameButMemConsole.refl (s : State) : SameButMemConsole s s := ⟨rfl, rfl, rfl, rfl, rfl, rfl, rfl, rfl, rfl, rfl, rfl⟩

theorem SameButMemConsole.trans {s t u : State} (h : SameButMemConsole s t) (k : SameButMemConsole t u) :
    SameButMemConsole s u :=
  ⟨k.params.trans h.params, k.regs.trans h.regs, k.pc.trans h.pc, k.cond.trans h.cond, k.run.trans h.run,
    k.oldPc.trans h.oldPc, k.instr.trans h.instr, k.unfinished.trans h.unfinished, k.host.trans h.host, k.hostCycle.trans h.hostCycle,
    k.aborted.trans h.aborted⟩

theorem SameButMemConsole.memWrite (s : State) (a v : Word) : SameButMemConsole s (memWrite s a v) :=
  ⟨rfl, rfl, rfl, rfl, rfl, rfl, rfl, rfl, rfl, rfl, rfl⟩

/-- A keyboard poll either clears KBSR, or makes KBSR ready with the oldest pending byte in KBDR; in both cases only the
console's coming answers change besides (R56). -/
theorem kbsrPoll_cases (s : State) : ∃ c : Console, c.output = s.console.output ∧
    c.pending.length ≤ s.console.pending.length ∧
    (kbsrPoll s = kbsrClear (s.setConsole c) ∨
      ∃ b, s.console.pending = .byte b :: c.pending ∧ kbsrPoll s = kbsrReady (s.setConsole c) b) := by
  have hempty : kbsrPoll s = kbsrClear (s.setConsole { s.console with polls := s.console.polls.tail }) ∨
      ∃ r rs, s.console.pending = r :: rs ∧ kbsrPoll s =
        match r with
        | .byte b => kbsrReady (s.setConsole { s.console with pending := rs, polls := s.console.polls.tail }) b
        | .failure => kbsrClear (s.setConsole { s.console with pending := rs, polls := s.console.polls.tail }) := by
    cases hr : pollReady s
    · exact Or.inl (by simp [kbsrPoll, conPoll, hr])
    · cases hp : s.console.pending with
      | nil => exact Or.inl (by simp [kbsrPoll, conPoll, conRead, hr, hp])
      | cons r rs => exact Or.inr ⟨r, rs, rfl, by cases r <;> simp [kbsrPoll, conPoll, conRead, hr, hp] <;> rfl⟩
  rcases hempty with h | ⟨r, rs, hp, h⟩
  · exact ⟨{ s.console with polls := s.console.polls.tail }, rfl, Nat.le_refl _, Or.inl h⟩
  · refine ⟨{ s.console with pending := rs, polls := s.console.polls.tail }, rfl, by simp [hp], ?_⟩
    cases r with
    | byte b => exact Or.inr ⟨b, hp, h⟩
    | failure => exact Or.inl h

theorem SameButMemConsole.setConsole (s : State) (c : Console) : SameButMemConsole s (s.setConsole c) :=
  ⟨rfl, rfl, rfl, rfl, rfl, rfl, rfl, rfl, rfl, rfl, rfl⟩

theorem SameButMemConsole.conWrite (s : State) (bs : List Byte) : SameButMemConsole s (conWrite s bs) :=
  SameButMemConsole.setConsole s _

theorem SameButMemConsole.reg {s t : State} (h : SameButMemConsole s t) (r : RegIdx) : t.reg r = s.reg r :=
  reg_congr h.regs r

theorem kbsrPoll_same (s : State) : SameButMemConsole s (kbsrPoll s) := by
  obtain ⟨c, -, -, h | ⟨b, -, h⟩⟩ := kbsrPoll_cases s <;> rw [h]
  · exact (SameButMemConsole.setConsole s c).trans (SameButMemConsole.memWrite _ _ _)
  · exact ((SameButMemConsole.setConsole s c).trans (SameButMemConsole.memWrite _ _ _)).trans
      (SameButMemConsole.memWrite _ _ _)

theorem memReadState_same (s : State) (a : Word) : SameButMemConsole s (memReadState s a) := by
  unfold memReadState
  split
  · exact kbsrPoll_same s
  · exact .refl s

/-- A poll emits nothing. -/
theorem kbsrPoll_output (s : State) : (kbsrPoll s).console.output = s.console.output := by
  obtain ⟨c, hc, -, h | ⟨b, -, h⟩⟩ := kbsrPoll_cases s <;> rw [h] <;> exact hc

theorem memReadState_output (s : State) (a : Word) : (memReadState s a).console.output = s.console.output := by
  unfold memReadState
  split
  · exact kbsrPoll_output s
  · rfl

/-- A read port access keeps the memory's canonical form. -/
theorem kbsrPoll_wf (s : State) (h : Memory.wf s.params.memInit s.mem) :
    Memory.wf (kbsrPoll s).params.memInit (kbsrPoll s).mem := by
  obtain ⟨c, -, -, e | ⟨b, -, e⟩⟩ := kbsrPoll_cases s <;> rw [e]
  · exact memWrite_wf _ _ _ h
  · exact memWrite_wf _ _ _ (memWrite_wf (s.setConsole c) _ _ h)

theorem memReadState_wf (s : State) (a : Word) (h : Memory.wf s.params.memInit s.mem) :
    Memory.wf (memReadState s a).params.memInit (memReadState s a).mem := by
  unfold memReadState
  split
  · exact kbsrPoll_wf s h
  · exact h

/-- A poll touches no cell but KBSR and KBDR (R56). -/
theorem rawRead_kbsrPoll_ne (s : State) {a : Word} (h1 : a ≠ s.params.kbsrAddr) (h2 : a ≠ s.params.kbdrAddr) :
    rawRead (kbsrPoll s) a = rawRead s a := by
  obtain ⟨c, -, -, h | ⟨b, -, h⟩⟩ := kbsrPoll_cases s <;> rw [h]
  · exact rawRead_memWrite_ne (s.setConsole c) _ h1
  · exact (rawRead_memWrite_ne _ _ h2).trans (rawRead_memWrite_ne (s.setConsole c) _ h1)

theorem rawRead_memReadState_ne (s : State) (p : Word) {a : Word} (h1 : a ≠ s.params.kbsrAddr)
    (h2 : a ≠ s.params.kbdrAddr) : rawRead (memReadState s p) a = rawRead s a := by
  unfold memReadState
  split
  · exact rawRead_kbsrPoll_ne s h1 h2
  · rfl

/-- A read of any other address than KBSR_ADDR is a plain load (R52, R57). -/
theorem memRead_plain (s : State) {a : Word} (h : a ≠ s.params.kbsrAddr) : memRead s a = (rawRead s a, s) := by
  simp [memRead, memReadState, h]

/-- Reading changes nothing where the memory and the console are the same. -/
theorem State.ext_same {s t : State} (h : SameButMemConsole s t) (hm : t.mem = s.mem) (hc : t.console = s.console) :
    t = s := by
  obtain ⟨h1, h2, h3, h4, h5, h6, h7, h8, h9, h10, h11⟩ := h
  cases s; cases t; simp_all

/-! ### The fetch -/

@[simp] theorem fetch_pc (s : State) : (fetch s).pc = s.pc + 1 := rfl
@[simp] theorem fetch_oldPc (s : State) : (fetch s).oldPc = s.pc := rfl
@[simp] theorem fetch_instr (s : State) : (fetch s).instr = (memRead s s.pc).1 := rfl
@[simp] theorem fetch_regs (s : State) : (fetch s).regs = s.regs := (memReadState_same s s.pc).regs
@[simp] theorem fetch_cond (s : State) : (fetch s).cond = s.cond := (memReadState_same s s.pc).cond
@[simp] theorem fetch_run (s : State) : (fetch s).run = s.run := (memReadState_same s s.pc).run
@[simp] theorem fetch_params (s : State) : (fetch s).params = s.params := (memReadState_same s s.pc).params
@[simp] theorem fetch_unfinished (s : State) : (fetch s).unfinished = s.unfinished := (memReadState_same s s.pc).unfinished
@[simp] theorem fetch_host (s : State) : (fetch s).host = s.host := (memReadState_same s s.pc).host
@[simp] theorem fetch_hostCycle (s : State) : (fetch s).hostCycle = s.hostCycle := (memReadState_same s s.pc).hostCycle
@[simp] theorem fetch_aborted (s : State) : (fetch s).aborted = s.aborted := (memReadState_same s s.pc).aborted
theorem fetch_mem (s : State) : (fetch s).mem = (memReadState s s.pc).mem := rfl
theorem fetch_console (s : State) : (fetch s).console = (memReadState s s.pc).console := rfl

theorem fetch_wf (s : State) (h : Memory.wf s.params.memInit s.mem) :
    Memory.wf (fetch s).params.memInit (fetch s).mem := memReadState_wf s s.pc h

/-- A fetch from any address but KBSR_ADDR only latches and increments. -/
theorem fetch_plain (s : State) (h : s.pc ≠ s.params.kbsrAddr) :
    fetch s = { s with oldPc := s.pc, instr := rawRead s s.pc, pc := s.pc + 1 } := by
  simp [fetch, memRead_plain s h]

/-! ### The string scan -/

theorem strRead_same (s : State) (a : Word) : SameButMemConsole s (strRead s a).2 := by
  unfold strRead
  split
  · exact memReadState_same s a
  · exact .refl s

theorem strRead_wf (s : State) (a : Word) (h : Memory.wf s.params.memInit s.mem) :
    Memory.wf (strRead s a).2.params.memInit (strRead s a).2.mem := by
  unfold strRead
  split
  · exact memReadState_wf s a h
  · exact h

/-- A scan changes memory and console only. -/
theorem stringScan_same (emit : Word → List Byte) (fuel : Nat) : ∀ (s : State) (a : Word),
    SameButMemConsole s (stringScan emit fuel s a).1 := by
  induction fuel with
  | zero => intro s a; exact .refl s
  | succ n ih =>
    intro s a
    unfold stringScan
    split
    · exact strRead_same s a
    · exact ((strRead_same s a).trans (.conWrite _ _)).trans (ih _ _)

theorem stringScan_wf (emit : Word → List Byte) (fuel : Nat) : ∀ (s : State) (a : Word),
    Memory.wf s.params.memInit s.mem →
    Memory.wf (stringScan emit fuel s a).1.params.memInit (stringScan emit fuel s a).1.mem := by
  induction fuel with
  | zero => intro s a h; exact h
  | succ n ih =>
    intro s a h
    unfold stringScan
    split
    · exact strRead_wf s a h
    · exact ih (conWrite (strRead s a).2 _) _ (strRead_wf s a h)

/-- A turn of a scan answers the scanned state, completed or marked with where it goes on (R185). -/
theorem scanTurn_eq (emit : Word → List Byte) (mark : Word → UnfinishedStep) (a : Word) (s : State) :
    scanTurn emit mark a s = .next
      ((stringScan emit 65536 s a).1.setUnfinished ((stringScan emit 65536 s a).2.map mark)) := by
  unfold scanTurn
  rcases stringScan emit 65536 s a with ⟨t, _ | b⟩ <;> rfl

/-! ### The blocking reads and the host's turn -/

/-- What the read of GETC can do: block, fail, or deliver a byte (R181, R223). -/
theorem getcRead_cases (s : State) :
    (s.console.pending = [] ∧ getcRead s = .next (s.setUnfinished (some .getc))) ∨
    (∃ rs, s.console.pending = .failure :: rs ∧ getcRead s = .next (raiseFatal
      ((s.setConsole { s.console with pending := rs }).setUnfinished none) (.consoleReadFailure s.oldPc))) ∨
    (∃ b rs, s.console.pending = .byte b :: rs ∧ getcRead s = .next (inputToR0
      ((s.setConsole { s.console with pending := rs }).setUnfinished none) b)) := by
  rcases hp : s.console.pending with _ | ⟨_ | _, rs⟩ <;> simp [getcRead, conRead, hp]

/-- What the read of IN can do: block, fail, or echo and deliver a byte (R184, R223). -/
theorem inpRead_cases (s : State) :
    (s.console.pending = [] ∧ inpRead s = .next (s.setUnfinished (some .inp))) ∨
    (∃ rs, s.console.pending = .failure :: rs ∧ inpRead s = .next (raiseFatal
      ((s.setConsole { s.console with pending := rs }).setUnfinished none) (.consoleReadFailure s.oldPc))) ∨
    (∃ b rs, s.console.pending = .byte b :: rs ∧ inpRead s = .next (inputToR0
      (conWrite ((s.setConsole { s.console with pending := rs }).setUnfinished none) [b]) b)) := by
  rcases hp : s.console.pending with _ | ⟨_ | _, rs⟩ <;> simp [inpRead, conRead, hp]

/-- What the host does next: the schedule, or the cycle once the schedule is used up (log 4). -/
theorem hostTurn_cycle (s : State) (h : s.host = []) : hostTurn s = hostTurn { s with host := s.hostCycle } := by
  obtain ⟨params, regs, pc, cond, run, mem, oldPc, instr, console, unfinished, host, hostCycle, aborted⟩ := s
  obtain rfl : host = [] := h
  rcases hostCycle with _ | ⟨_ | _ | _, _⟩ <;> rfl

/-- One act of the host changes the schedule, and may append console input or, outside a scan, end the run (R42). -/
theorem hostAct_cases (e : HostEvent) (rest : List HostEvent) (s : State) : ∃ es rs ab, hostAct e rest s =
    { s with host := es, console := { s.console with pending := s.console.pending ++ rs }, aborted := ab } ∧
    (s.scanning = true → ab = s.aborted) := by
  cases e with
  | quiet => exact ⟨rest, [], s.aborted, by simp [hostAct], fun _ => rfl⟩
  | supply rs => exact ⟨rest, rs, s.aborted, by simp [hostAct], fun _ => rfl⟩
  | abort =>
    cases h : s.scanning
    · exact ⟨rest, [], true, by simp [hostAct, h], by simp⟩
    · exact ⟨.abort :: rest, [], s.aborted, by simp [hostAct, h], fun _ => rfl⟩

/-- The host's turn changes the schedule, and may append console input or, outside a scan, end the run (R42, R225). -/
theorem hostTurn_cases (s : State) : ∃ es rs ab, hostTurn s =
    { s with host := es, console := { s.console with pending := s.console.pending ++ rs }, aborted := ab } ∧
    (s.scanning = true → ab = s.aborted) := by
  unfold hostTurn
  split
  · exact hostAct_cases _ _ s
  · exact hostAct_cases _ _ s
  · exact ⟨s.host, [], s.aborted, by simp, fun _ => rfl⟩

end Sys2Proof.Machine
end

