-- ==== Sys2Proof/Laws/Exec.lean ====
section
/-! SUPPORT. What the shared ends of the instructions do (the flag-setting write-back, the load), how TRAP reduces to
its services, and the branch condition as a truth table. -/

namespace Sys2Proof.Machine

/-! ### Write-back and load -/

theorem reg_writeBack (s : State) (d q : RegIdx) (v : Word) :
    (writeBack s d v).reg q = if q = d then v else s.reg q := reg_setReg s d q v

@[simp] theorem writeBack_cond (s : State) (d : RegIdx) (v : Word) : (writeBack s d v).cond = condOf v := rfl
@[simp] theorem writeBack_pc (s : State) (d : RegIdx) (v : Word) : (writeBack s d v).pc = s.pc := rfl
@[simp] theorem writeBack_run (s : State) (d : RegIdx) (v : Word) : (writeBack s d v).run = s.run := rfl
@[simp] theorem writeBack_mem (s : State) (d : RegIdx) (v : Word) : (writeBack s d v).mem = s.mem := rfl
@[simp] theorem writeBack_params (s : State) (d : RegIdx) (v : Word) : (writeBack s d v).params = s.params := rfl
@[simp] theorem writeBack_console (s : State) (d : RegIdx) (v : Word) : (writeBack s d v).console = s.console := rfl
@[simp] theorem writeBack_unfinished (s : State) (d : RegIdx) (v : Word) : (writeBack s d v).unfinished = s.unfinished := rfl

/-- A load is its read, then DR and cond; the registers are those before the read. -/
theorem loadTo_eq (s : State) (dr : RegIdx) (ea : Word) : loadTo s dr ea =
    { (memRead s ea).2 with regs := s.regs.set dr (memRead s ea).1, cond := condOf (memRead s ea).1 } := by
  simp [loadTo, writeBack, alu, setcc, State.setReg, memRead, (memReadState_same s ea).regs]

theorem eaIndirect_same (s : State) (off9 : BitVec 9) : SameButMemConsole s (eaIndirect s off9).2 :=
  memReadState_same s _

/-- R0 at the entry of a service is the caller's R0 (R180). -/
@[simp] theorem trapEntry_reg_zero (s : State) : (trapEntry s).reg 0 = s.reg 0 := reg_setReg_ne s _ (by decide)

/-- The mask test of R131 is the truth table of R132. -/
theorem branchTaken_eq (nzp : BitVec 3) (c : Cond) : branchTaken nzp c = maskBitOf nzp c := by
  revert nzp; cases c <;> decide

/-- The flag of a byte in R0 is ZRO or POS, never NEG (R181, R184). -/
theorem condOf_zext (b : Byte) : condOf (zext b) = if b = 0 then .zro else .pos := by
  revert b; decide +kernel

/-! ### TRAP -/

/-- A vector selects no service exactly outside 0x20..0x25 (R187). -/
theorem serviceOf_eq_none (v : BitVec 8) : serviceOf v = none ↔ v.toNat < 0x20 ∨ 0x25 < v.toNat := by
  revert v; decide +kernel

/-- Every TRAP is one of the six services' instructions, or FATAL (R92, R180). -/
theorem exec_trap_cases (v : BitVec 8) (s : State) :
    (v = 0x20 ∧ exec (.trap v) s = exec .getc s) ∨ (v = 0x21 ∧ exec (.trap v) s = exec .out s) ∨
    (v = 0x22 ∧ exec (.trap v) s = exec .puts s) ∨ (v = 0x23 ∧ exec (.trap v) s = exec .inp s) ∨
    (v = 0x24 ∧ exec (.trap v) s = exec .putsp s) ∨ (v = 0x25 ∧ exec (.trap v) s = exec .halt s) ∨
    ((v.toNat < 0x20 ∨ 0x25 < v.toNat) ∧
      exec (.trap v) s = .next (raiseFatal (trapEntry s) (.unknownTrapVector v s.instr s.oldPc))) := by
  have split : (v = 0x20 ∨ v = 0x21 ∨ v = 0x22 ∨ v = 0x23 ∨ v = 0x24 ∨ v = 0x25) ∨
      (v.toNat < 0x20 ∨ 0x25 < v.toNat) := by revert v; decide +kernel
  rcases split with (h | h | h | h | h | h) | h
  · exact Or.inl ⟨h, by subst h; rfl⟩
  · exact Or.inr (Or.inl ⟨h, by subst h; rfl⟩)
  · exact Or.inr (Or.inr (Or.inl ⟨h, by subst h; rfl⟩))
  · exact Or.inr (Or.inr (Or.inr (Or.inl ⟨h, by subst h; rfl⟩)))
  · exact Or.inr (Or.inr (Or.inr (Or.inr (Or.inl ⟨h, by subst h; rfl⟩))))
  · exact Or.inr (Or.inr (Or.inr (Or.inr (Or.inr (Or.inl ⟨h, by subst h; rfl⟩)))))
  · refine Or.inr (Or.inr (Or.inr (Or.inr (Or.inr (Or.inr ⟨h, ?_⟩)))))
    simp only [exec, execTrap, dispatchTrap, (serviceOf_eq_none v).mpr h]
    rfl

/-- What exec of GETC can do (R181, R223, R236). -/
theorem execGetc_cases (s : State) :
    (s.console.pending = [] ∧ exec .getc s = .next ((trapEntry s).setUnfinished (some .getc))) ∨
    (∃ rs, s.console.pending = .failure :: rs ∧ exec .getc s = .next (raiseFatal
      (((trapEntry s).setConsole { s.console with pending := rs }).setUnfinished none) (.consoleReadFailure s.oldPc))) ∨
    (∃ b rs, s.console.pending = .byte b :: rs ∧ exec .getc s = .next (inputToR0
      (((trapEntry s).setConsole { s.console with pending := rs }).setUnfinished none) b)) :=
  getcRead_cases (trapEntry s)

/-- What exec of IN can do (R184, R223, R236). -/
theorem execInp_cases (s : State) :
    (s.console.pending = [] ∧
      exec .inp s = .next ((conWrite (trapEntry s) s.params.inPrompt).setUnfinished (some .inp))) ∨
    (∃ rs, s.console.pending = .failure :: rs ∧ exec .inp s = .next (raiseFatal
      (((conWrite (trapEntry s) s.params.inPrompt).setConsole
        { (conWrite (trapEntry s) s.params.inPrompt).console with pending := rs }).setUnfinished none)
      (.consoleReadFailure s.oldPc))) ∨
    (∃ b rs, s.console.pending = .byte b :: rs ∧ exec .inp s = .next (inputToR0 (conWrite
      (((conWrite (trapEntry s) s.params.inPrompt).setConsole
        { (conWrite (trapEntry s) s.params.inPrompt).console with pending := rs }).setUnfinished none) [b]) b)) :=
  inpRead_cases (conWrite (trapEntry s) s.params.inPrompt)

/-! ### withFetchWord -/

/-- From a running engine at a canonical memory, with no host act due and pc elsewhere than KBSR_ADDR, the next step
runs exactly the word that withFetchWord places. -/
theorem step_withFetchWord (s : State) (w : Word) (hr : s.run = .running) (ha : s.aborted = false)
    (hw : s.unfinished = none) (hh : s.host = []) (hc : s.hostCycle = []) (hm : s.MemWf) (hk : s.pc ≠ s.params.kbsrAddr) :
    step (s.withFetchWord 16 w.toNat) = exec (decode w)
      { s.withFetchWord 16 w.toNat with oldPc := s.pc, instr := w, pc := s.pc + 1 } := by
  have e : s.withFetchWord 16 w.toNat = memWrite s s.pc w := by
    have : w.toNat % 2 ^ 16 = w.toNat := Nat.mod_eq_of_lt w.isLt
    rw [State.withFetchWord, this, BitVec.ofNat_toNat, BitVec.setWidth_eq]
  have f : fetch (memWrite s s.pc w) = { memWrite s s.pc w with oldPc := s.pc, instr := w, pc := s.pc + 1 } := by
    rw [fetch_plain _ (by simpa using hk)]
    have := rawRead_memWrite_self s s.pc w hm
    simp [this]
  have t : hostTurn (memWrite s s.pc w) = memWrite s s.pc w := by simp [hostTurn, hh, hc]
  rw [e]
  simp [step, ha, hr, hw, t, f]

/-! ### Several steps -/

/-- A run of one more step goes on from what the first step answers. -/
theorem core_run_succ (n : Nat) {s t : State} (h : step s = .next t) :
    Sys2Proof.core.run (n + 1) s = Sys2Proof.core.run n t := by
  have e : Sys2Proof.core.step s = .next t := h
  simp only [Host.Core.run, e]

end Sys2Proof.Machine
end

