-- ==== Sys2Proof/Laws/PerInstr.lean ====
section
/-! SUPPORT. Statements about every instruction as syntax, one lemma a constructor. -/

namespace Sys2Proof.Laws.EncodesOpcode

/-- The encoder writes the opcode of the instruction's row of spec/opcode_table.json (spec/30_encoding.md R80). -/
def Statement (i : Instr) : Prop := (encode i).extractLsb' 12 4 = (rowMatch i).extractLsb' 12 4

theorem addReg (dr sr1 sr2 : RegIdx) : Statement (.addReg dr sr1 sr2) := by
  simp [Statement, encode, rowMatch, placeOp, placeReg, extract_place_self, extract_place_other, Opcode.code]

theorem addImm (dr sr1 : RegIdx) (imm5 : BitVec 5) : Statement (.addImm dr sr1 imm5) := by
  simp [Statement, encode, rowMatch, placeOp, placeReg, extract_place_self, extract_place_other, Opcode.code]

theorem andReg (dr sr1 sr2 : RegIdx) : Statement (.andReg dr sr1 sr2) := by
  simp [Statement, encode, rowMatch, placeOp, placeReg, extract_place_self, extract_place_other, Opcode.code]

theorem andImm (dr sr1 : RegIdx) (imm5 : BitVec 5) : Statement (.andImm dr sr1 imm5) := by
  simp [Statement, encode, rowMatch, placeOp, placeReg, extract_place_self, extract_place_other, Opcode.code]

theorem not (dr sr1 : RegIdx) : Statement (.not dr sr1) := by
  simp [Statement, encode, rowMatch, placeOp, placeReg, extract_place_self, extract_place_other, Opcode.code]

theorem br (nzp : BitVec 3) (off9 : BitVec 9) : Statement (.br nzp off9) := by
  simp [Statement, encode, rowMatch, placeOp, extract_place_self, extract_place_other, Opcode.code]

theorem jmp (base : RegIdx) : Statement (.jmp base) := by
  simp [Statement, encode, rowMatch, placeOp, placeReg, extract_place_self, extract_place_other, Opcode.code]

theorem ret : Statement .ret := by unfold Statement; decide

theorem jsr (off11 : BitVec 11) : Statement (.jsr off11) := by
  simp [Statement, encode, rowMatch, placeOp, extract_place_self, extract_place_other, Opcode.code]

theorem jsrr (base : RegIdx) : Statement (.jsrr base) := by
  simp [Statement, encode, rowMatch, placeOp, placeReg, extract_place_self, extract_place_other, Opcode.code]

theorem ld (dr : RegIdx) (off9 : BitVec 9) : Statement (.ld dr off9) := by
  simp [Statement, encode, rowMatch, placeOp, placeReg, extract_place_self, extract_place_other, Opcode.code]

theorem ldi (dr : RegIdx) (off9 : BitVec 9) : Statement (.ldi dr off9) := by
  simp [Statement, encode, rowMatch, placeOp, placeReg, extract_place_self, extract_place_other, Opcode.code]

theorem ldr (dr base : RegIdx) (off6 : BitVec 6) : Statement (.ldr dr base off6) := by
  simp [Statement, encode, rowMatch, placeOp, placeReg, extract_place_self, extract_place_other, Opcode.code]

theorem lea (dr : RegIdx) (off9 : BitVec 9) : Statement (.lea dr off9) := by
  simp [Statement, encode, rowMatch, placeOp, placeReg, extract_place_self, extract_place_other, Opcode.code]

theorem st (sr : RegIdx) (off9 : BitVec 9) : Statement (.st sr off9) := by
  simp [Statement, encode, rowMatch, placeOp, placeReg, extract_place_self, extract_place_other, Opcode.code]

theorem sti (sr : RegIdx) (off9 : BitVec 9) : Statement (.sti sr off9) := by
  simp [Statement, encode, rowMatch, placeOp, placeReg, extract_place_self, extract_place_other, Opcode.code]

theorem str (sr base : RegIdx) (off6 : BitVec 6) : Statement (.str sr base off6) := by
  simp [Statement, encode, rowMatch, placeOp, placeReg, extract_place_self, extract_place_other, Opcode.code]

theorem trap (vect : BitVec 8) : Statement (.trap vect) := by
  simp [Statement, encode, rowMatch, trapWord, placeOp, extract_place_self, extract_place_other, Opcode.code]

theorem getc : Statement .getc := by unfold Statement; decide

theorem out : Statement .out := by unfold Statement; decide

theorem puts : Statement .puts := by unfold Statement; decide

theorem inp : Statement .inp := by unfold Statement; decide

theorem putsp : Statement .putsp := by unfold Statement; decide

theorem halt : Statement .halt := by unfold Statement; decide

theorem rti : Statement .rti := by unfold Statement; decide

theorem res : Statement .res := by unfold Statement; decide

end Sys2Proof.Laws.EncodesOpcode
end

