-- ==== Sys2Proof/Laws/Scan.lean ====
section
/-! SUPPORT. What a PUTS or PUTSP scan does in one turn: it ends at the first zero word, or goes on after a lap
(spec/43_trap.md R183, R185, R186). -/

namespace Sys2Proof.Machine

theorem conWrite_nil (s : State) : conWrite s [] = s := by
  cases s; simp [conWrite, State.setConsole]

theorem conWrite_conWrite (s : State) (bs cs : List Byte) : conWrite (conWrite s bs) cs = conWrite s (bs ++ cs) := by
  simp [conWrite, State.setConsole]

/-- Output does not change what a poll does. -/
theorem kbsrPoll_conWrite (s : State) (bs : List Byte) : kbsrPoll (conWrite s bs) = conWrite (kbsrPoll s) bs := by
  have hr : pollReady (conWrite s bs) = pollReady s := rfl
  unfold kbsrPoll conPoll
  rw [hr]
  cases pollReady s
  · rfl
  · simp only [conRead]
    rcases hp : s.console.pending with _ | ⟨_ | _, rs⟩ <;>
      simp [conWrite, hp, State.setConsole, kbsrClear, kbsrReady, memWrite]

/-- Nor does a register. -/
theorem kbsrPoll_setReg (s : State) (r : RegIdx) (v : Word) : kbsrPoll (s.setReg r v) = (kbsrPoll s).setReg r v := by
  have hr : pollReady (s.setReg r v) = pollReady s := rfl
  unfold kbsrPoll conPoll
  rw [hr]
  cases pollReady s
  · rfl
  · simp only [conRead]
    rcases hp : s.console.pending with _ | ⟨_ | _, rs⟩ <;>
      simp [hp, State.setReg, State.setConsole, kbsrClear, kbsrReady, memWrite]

theorem afterScanReads_setReg (s : State) (r : RegIdx) (v a : Word) (k : Nat) :
    afterScanReads (s.setReg r v) a k = (afterScanReads s a k).setReg r v := by
  unfold afterScanReads
  rw [kbsrPoll_setReg, setReg_params]
  split <;> rfl

theorem scanWord_setReg (s : State) (r : RegIdx) (v a : Word) (k : Nat) :
    scanWord (s.setReg r v) a k = scanWord s a k := by
  unfold scanWord
  rw [afterScanReads_setReg]
  rfl

/-- So the R7 that TRAP writes changes nothing in a scan. -/
theorem scannedTo_setReg (emit : Word → List Byte) (s : State) (q : RegIdx) (v a : Word) (r n : Nat) :
    scannedTo emit (s.setReg q v) a r n = (scannedTo emit s a r n).setReg q v := by
  unfold scannedTo scanOutput
  rw [afterScanReads_setReg]
  simp only [scanWord_setReg]
  rfl

theorem ScanEndsAfter_setReg {s : State} {r : RegIdx} {v a : Word} {n : Nat} :
    ScanEndsAfter (s.setReg r v) a n ↔ ScanEndsAfter s a n := by
  unfold ScanEndsAfter
  simp only [scanWord_setReg]

theorem ScanMeetsNoZero_setReg {s : State} {r : RegIdx} {v a : Word} :
    ScanMeetsNoZero (s.setReg r v) a ↔ ScanMeetsNoZero s a := by
  unfold ScanMeetsNoZero
  simp only [scanWord_setReg]

theorem afterScanReads_same (s : State) (a : Word) (k : Nat) : SameButMemConsole s (afterScanReads s a k) := by
  unfold afterScanReads
  split
  · exact kbsrPoll_same s
  · exact .refl s

@[simp] theorem afterScanReads_zero (s : State) (a : Word) : afterScanReads s a 0 = s := by simp [afterScanReads]

/-- A scan emits what it emits, and nothing by its reads. -/
theorem afterScanReads_output (s : State) (a : Word) (k : Nat) :
    (afterScanReads s a k).console.output = s.console.output := by
  unfold afterScanReads
  split
  · exact kbsrPoll_output s
  · rfl

/-- With plain string reads a scan's reads change nothing (R185). -/
theorem afterScanReads_plain (s : State) (a : Word) (k : Nat) (h : s.params.stringReadIntercepts = false) :
    afterScanReads s a k = s := by simp [afterScanReads, h]

/-- A lap meets KBSR_ADDR at one place. -/
theorem add_ofNat_eq_iff (a b : Word) {k : Nat} (h : k < 65536) : a + BitVec.ofNat 16 k = b ↔ (b - a).toNat = k := by
  constructor
  · rintro rfl
    rw [BitVec.add_comm, BitVec.add_sub_cancel, BitVec.toNat_ofNat, Nat.mod_eq_of_lt h]
  · rintro rfl
    rw [BitVec.ofNat_toNat, BitVec.setWidth_eq, BitVec.add_comm, BitVec.sub_add_cancel]

/-- Read `k` of a scan, after the output so far. -/
theorem strRead_scan (s : State) (a : Word) {k : Nat} (hk : k < 65536) (out : List Byte) :
    strRead (conWrite (afterScanReads s a k) out) (a + BitVec.ofNat 16 k) =
      (scanWord s a k, conWrite (afterScanReads s a (k + 1)) out) := by
  cases hi : s.params.stringReadIntercepts
  · simp only [strRead, scanWord, afterScanReads_plain s a _ hi, conWrite_params, hi]
    rfl
  · have hp := (afterScanReads_same s a k).params
    have hm := add_ofNat_eq_iff a s.params.kbsrAddr hk
    simp only [strRead, memRead, memReadState, conWrite_params, hp, hi, if_true]
    by_cases e : a + BitVec.ofNat 16 k = s.params.kbsrAddr
    · have o := hm.mp e
      have e0 : afterScanReads s a k = s := by simp [afterScanReads, o]
      have e1 : afterScanReads s a (k + 1) = kbsrPoll s := by simp [afterScanReads, hi, o]
      rw [if_pos e, scanWord, e0, e1, kbsrPoll_conWrite]
      rfl
    · have o : (s.params.kbsrAddr - a).toNat ≠ k := fun o => e (hm.mpr o)
      have e1 : afterScanReads s a (k + 1) = afterScanReads s a k := by
        simp only [afterScanReads, hi, Bool.true_and, decide_eq_true_eq]
        have : (s.params.kbsrAddr - a).toNat < k + 1 ↔ (s.params.kbsrAddr - a).toNat < k := by omega
        simp only [this]
      rw [if_neg e, scanWord, e1]
      rfl

/-- A scan whose first zero word is word `n` ends there. -/
theorem stringScan_ends (emit : Word → List Byte) (s : State) (a : Word) (n : Nat) (hn : n < 65536)
    (hz : scanWord s a n = 0) (hk : ∀ k, k < n → scanWord s a k ≠ 0) :
    ∀ (m j fuel : Nat) (out : List Byte), j + m = n → m < fuel →
      stringScan emit fuel (conWrite (afterScanReads s a j) out) (a + BitVec.ofNat 16 j) =
        (conWrite (afterScanReads s a (n + 1)) (out ++ (List.range' j m).flatMap (fun k => emit (scanWord s a k))), none) := by
  intro m
  induction m with
  | zero =>
    intro j fuel out hj hf
    obtain ⟨f, rfl⟩ : ∃ f, fuel = f + 1 := ⟨fuel - 1, by omega⟩
    obtain rfl : j = n := by omega
    simp [stringScan, strRead_scan s a hn out, hz]
  | succ m ih =>
    intro j fuel out hj hf
    obtain ⟨f, rfl⟩ : ∃ f, fuel = f + 1 := ⟨fuel - 1, by omega⟩
    have hj' : j < 65536 := by omega
    rw [stringScan, strRead_scan s a hj' out, if_neg (hk j (by omega)), conWrite_conWrite, BitVec.add_assoc]
    have e : BitVec.ofNat 16 j + 1 = BitVec.ofNat 16 (j + 1) := by
      apply BitVec.eq_of_toNat_eq; simp [BitVec.toNat_add]
    rw [e, ih (j + 1) f _ (by omega) (by omega)]
    simp [List.range'_succ]

/-- A scan that meets no zero word in its reads goes on after the last of them. -/
theorem stringScan_goes_on (emit : Word → List Byte) (s : State) (a : Word) (h : ScanMeetsNoZero s a) :
    ∀ (fuel j : Nat) (out : List Byte), j + fuel ≤ 65536 →
      stringScan emit fuel (conWrite (afterScanReads s a j) out) (a + BitVec.ofNat 16 j) =
        (conWrite (afterScanReads s a (j + fuel)) (out ++ (List.range' j fuel).flatMap (fun k => emit (scanWord s a k))),
          some (a + BitVec.ofNat 16 (j + fuel))) := by
  intro fuel
  induction fuel with
  | zero => intro j out _; simp [stringScan]
  | succ f ih =>
    intro j out hj
    rw [stringScan, strRead_scan s a (by omega) out, if_neg (h j (by omega)), conWrite_conWrite, BitVec.add_assoc]
    have e : BitVec.ofNat 16 j + 1 = BitVec.ofNat 16 (j + 1) := by
      apply BitVec.eq_of_toNat_eq; simp [BitVec.toNat_add]
    rw [e, ih (j + 1) _ (by omega)]
    simp [List.range'_succ, Nat.add_assoc, Nat.add_comm 1 f]

/-- A scan either ends within a lap or meets no zero word in it. -/
theorem scan_ends_or_not (s : State) (a : Word) : (∃ n, ScanEndsAfter s a n) ∨ ScanMeetsNoZero s a := by
  by_cases h : ∃ n, n < 65536 ∧ scanWord s a n = 0
  · obtain ⟨n, hn, hz⟩ := h
    induction n using Nat.strongRecOn with
    | ind n ih =>
      by_cases hk : ∀ k, k < n → scanWord s a k ≠ 0
      · exact Or.inl ⟨n, hn, hz, hk⟩
      · simp only [Classical.not_forall, Classical.not_not] at hk
        obtain ⟨k, hk, hz'⟩ := hk
        exact ih k hk (by omega) hz'
  · exact Or.inr fun k hk hz => h ⟨k, hk, hz⟩

/-- A lap in which the scan ends (R183, R186). -/
theorem stringScan_lap_ends (emit : Word → List Byte) (s : State) (a : Word) (n lap : Nat) (hl : lap = 65536)
    (h : ScanEndsAfter s a n) : stringScan emit lap s a =
      (scannedTo emit s a (n + 1) n, none) := by
  have e := stringScan_ends emit s a n h.1 h.2.1 h.2.2 n 0 lap [] (by omega) (by have := h.1; omega)
  have ha : a + BitVec.ofNat 16 0 = a := by simp
  rw [afterScanReads_zero, conWrite_nil, List.nil_append, ← List.range_eq_range', ha] at e
  exact e

/-- A lap that meets no zero word: the scan goes on from where it began (R185). -/
theorem stringScan_lap_goes_on (emit : Word → List Byte) (s : State) (a : Word) (lap : Nat) (hl : lap = 65536)
    (h : ScanMeetsNoZero s a) : stringScan emit lap s a =
      (scannedTo emit s a lap lap, some a) := by
  have e := stringScan_goes_on emit s a h lap 0 [] (by omega)
  have ha : a + BitVec.ofNat 16 0 = a := by simp
  have hb : a + BitVec.ofNat 16 lap = a := by subst hl; simp
  rw [Nat.zero_add, afterScanReads_zero, conWrite_nil, List.nil_append, ← List.range_eq_range', ha, hb] at e
  exact e

theorem scannedTo_same (emit : Word → List Byte) (s : State) (a : Word) (r n : Nat) :
    SameButMemConsole s (scannedTo emit s a r n) := (afterScanReads_same s a r).trans (.conWrite _ _)

theorem scannedTo_output (emit : Word → List Byte) (s : State) (a : Word) (r n : Nat) :
    (scannedTo emit s a r n).console.output = s.console.output ++ scanOutput emit s a n :=
  congrArg (· ++ scanOutput emit s a n) (afterScanReads_output s a r)

/-- A turn in which the scan ends. -/
theorem scanTurn_ends (emit : Word → List Byte) (mark : Word → UnfinishedStep) (s : State) (a : Word) (n : Nat)
    (h : ScanEndsAfter s a n) : scanTurn emit mark a s =
      .next ((scannedTo emit s a (n + 1) n).setUnfinished none) := by
  rw [scanTurn_eq, stringScan_lap_ends emit s a n _ rfl h, Option.map_none]

/-- A turn in which the scan meets no zero word. -/
theorem scanTurn_goes_on (emit : Word → List Byte) (mark : Word → UnfinishedStep) (s : State) (a : Word)
    (h : ScanMeetsNoZero s a) : scanTurn emit mark a s =
      .next ((scannedTo emit s a 65536 65536).setUnfinished (some (mark a))) := by
  rw [scanTurn_eq, stringScan_lap_goes_on emit s a _ rfl h, Option.map_some]

end Sys2Proof.Machine
end

