-- ==== Sys2Proof/Tests/Slice0.lean ====
section
/-! SUPPORT. Tests: words written out bit by bit from spec/30_encoding.md R85; single steps with the inputs and outputs
of spec/95_test_vectors.md; the well-formedness smoke test; a witness for every statement with hypotheses. -/

namespace Sys2Proof.Tests

open Sys2Proof Sys2Proof.Machine

/-! ### Decoding: R85's patterns with the operands of spec/95_test_vectors.md section 2 -/

theorem test_decode_add_reg : decode 0b0001010000000001 = .addReg 2 0 1 := by decide
theorem test_decode_add_imm : decode 0b0001001001111111 = .addImm 1 1 (-1) := by decide
theorem test_decode_and_reg : decode 0b0101011001000010 = .andReg 3 1 2 := by decide
theorem test_decode_and_imm : decode 0b0101100100111111 = .andImm 4 4 (-1) := by decide
theorem test_decode_not : decode 0b1001011010111111 = .not 3 2 := by decide
theorem test_decode_br : decode 0b0000010000000010 = .br 0b010 2 := by decide
theorem test_decode_jmp : decode 0b1100000010000000 = .jmp 2 := by decide
theorem test_decode_ret : decode 0b1100000111000000 = .ret := by decide
theorem test_decode_jsr : decode 0b0100100000000100 = .jsr 4 := by decide
theorem test_decode_jsrr : decode 0b0100000011000000 = .jsrr 3 := by decide
theorem test_decode_ld : decode 0b0010001000000011 = .ld 1 3 := by decide
theorem test_decode_ldi : decode 0b1010010000010011 = .ldi 2 19 := by decide
theorem test_decode_ldr : decode 0b0110100101111110 = .ldr 4 5 (-2) := by decide
theorem test_decode_lea : decode 0b1110000000000010 = .lea 0 2 := by decide
theorem test_decode_st : decode 0b0011011111111011 = .st 3 (-5) := by decide
theorem test_decode_sti : decode 0b1011011000000001 = .sti 3 1 := by decide
theorem test_decode_str : decode 0b0111110101011111 = .str 6 5 31 := by decide
theorem test_decode_trap : decode 0b1111000000100110 = .trap 0x26 := by decide
theorem test_decode_getc : decode 0b1111000000100000 = .getc := by decide
theorem test_decode_out : decode 0b1111000000100001 = .out := by decide
theorem test_decode_puts : decode 0b1111000000100010 = .puts := by decide
theorem test_decode_in : decode 0b1111000000100011 = .inp := by decide
theorem test_decode_putsp : decode 0b1111000000100100 = .putsp := by decide
theorem test_decode_halt_ignored_bits : decode 0b1111000100100101 = .halt := by decide
theorem test_decode_rti : decode 0b1000000000000000 = .rti := by decide
theorem test_decode_res : decode 0b1101000100100011 = .res := by decide
theorem test_decodeTableWord : decodeTableWord 16 0x1401 = some (.addReg 2 0 1) ∧ decodeTableWord 24 0 = none := by decide

/-! ### Well-formedness: each check refuses its ill-formed term -/

theorem test_wf_refuses_jmp_r7 : (Instr.jmp 7).wellFormed = false := by decide
theorem test_wf_refuses_trap_low_service : (Instr.trap 0x20).wellFormed = false := by decide
theorem test_wf_refuses_trap_high_service : (Instr.trap 0x25).wellFormed = false := by decide
theorem test_wf_accepts : (Instr.jmp 2).wellFormed = true ∧ (Instr.trap 0x1F).wellFormed = true ∧
    (Instr.trap 0x26).wellFormed = true := by decide

/-! ### Small states -/

/-- The spec's defaults, with numbers for the free exit statuses so that states can be compared. -/
def cfg : Config := { Config.default with exitIoFailure := 74, exitAbort := 130, exitLoadFailure := 1 }

/-- A running machine at `pc` with the word there, more cells, and R0..R7. -/
def at_ (pc : Word) (w : Word) (cells : List (Word × Word)) (r : Vector Word 8) : State :=
  (((pc, w) :: cells).foldl (fun s c => memWrite s c.1 c.2) { State.boot cfg [] with pc := pc, regs := r })

/-- All registers zero. -/
def zeros : Vector Word 8 := Vector.replicate 8 0

/-- One field of the state after a step, if there is one. -/
def get {α : Type} (f : State → α) : Result → Option α
  | .next t => some (f t)
  | .fault _ => none
  | .refused _ => none

/-- With console input pending. -/
def withInput (s : State) (rs : List ReadReply) : State := s.setConsole { s.console with pending := rs }

/-! ### Steps, from spec/95_test_vectors.md -/

/-- 2.3: signed overflow wraps. -/
theorem test_add_overflow :
    get (fun t => (t.reg 2, t.cond)) (step (at_ 0x3000 0x1401 [] #v[0x7FFF, 1, 0, 0, 0, 0, 0, 0]))
      = some (0x8000, .neg) := by decide
/-- 2.3: carry lost. -/
theorem test_add_carry :
    get (fun t => (t.reg 2, t.cond)) (step (at_ 0x3000 0x1401 [] #v[0xFFFF, 1, 0, 0, 0, 0, 0, 0]))
      = some (0, .zro) := by decide
/-- 2.3: a negative immediate. -/
theorem test_add_imm_negative :
    get (fun t => (t.reg 1, t.cond)) (step (at_ 0x3000 0x127F [] zeros)) = some (0xFFFF, .neg) := by decide
/-- 2.3: AND. -/
theorem test_and :
    get (fun t => (t.reg 3, t.cond)) (step (at_ 0x3000 0x5642 [] #v[0, 0x0F0F, 0x00FF, 0, 0, 0, 0, 0]))
      = some (0x000F, .pos) := by decide
/-- 2.3: AND with #-16. -/
theorem test_and_imm :
    get (fun t => (t.reg 0, t.cond)) (step (at_ 0x3000 0x5030 [] #v[0x123F, 0, 0, 0, 0, 0, 0, 0]))
      = some (0x1230, .pos) := by decide
/-- 2.3: NOT with ignored bits zero. -/
theorem test_not :
    get (fun t => (t.reg 3, t.cond)) (step (at_ 0x3000 0x9680 [] zeros)) = some (0xFFFF, .neg) := by decide
/-- 2.4: BRz taken; BR never. -/
theorem test_br : get State.pc (step (at_ 0x3000 0x0402 [] zeros)) = some 0x3003 ∧
    get State.pc (step (at_ 0x3000 0x0000 [] zeros)) = some 0x3001 := by decide
/-- 2.4: the target wraps at 0xFFFF. -/
theorem test_br_wraps : get State.pc (step (at_ 0xFFFF 0x0E01 [] zeros)) = some 0x0001 := by decide
/-- 2.4: JMP and RET. -/
theorem test_jmp : get State.pc (step (at_ 0x3000 0xC080 [] #v[0, 0, 0x4000, 0, 0, 0, 0, 0])) = some 0x4000 ∧
    get State.pc (step (at_ 0x3000 0xC1C0 [] #v[0, 0, 0, 0, 0, 0, 0, 0x3050])) = some 0x3050 := by decide
/-- 2.4: JSR backwards. -/
theorem test_jsr :
    get (fun t => (t.reg 7, t.pc)) (step (at_ 0x3000 0x4C00 [] zeros)) = some (0x3001, 0x2C01) := by decide
/-- 2.4: JSRR R7 falls through. -/
theorem test_jsrr_r7 :
    get (fun t => (t.reg 7, t.pc)) (step (at_ 0x3000 0x41C0 [] #v[0, 0, 0, 0, 0, 0, 0, 0x5000]))
      = some (0x3001, 0x3001) := by decide
/-- 2.5: LD. -/
theorem test_ld :
    get (fun t => (t.reg 1, t.cond)) (step (at_ 0x3000 0x2203 [(0x3004, 0x0042)] zeros))
      = some (0x0042, .pos) := by decide
/-- 2.5 and the source's own example W6: LDI. -/
theorem test_ldi :
    get (fun t => (t.reg 2, t.cond)) (step (at_ 0x0050 0xA413 [(0x0064, 0x00C8), (0x00C8, 0xBEEF)] zeros))
      = some (0xBEEF, .neg) := by decide
/-- 2.5: LDR with DR = BaseR, and EA wrapping to 0. -/
theorem test_ldr :
    get (fun t => (t.reg 5, t.cond)) (step (at_ 0x3000 0x6B40 [(0x4000, 0x1111)] #v[0, 0, 0, 0, 0, 0x4000, 0, 0]))
      = some (0x1111, .pos) ∧
    get (fun t => t.reg 7) (step (at_ 0x3000 0x6E41 [(0x0000, 0x0007)] #v[0, 0xFFFF, 0, 0, 0, 0, 0, 0]))
      = some 0x0007 := by decide
/-- 2.5: LEA sets cond from the address. -/
theorem test_lea : get (fun t => (t.reg 0, t.cond)) (step (at_ 0x7F10 0xE0FF [] zeros)) = some (0x8010, .neg) ∧
    get (fun t => (t.reg 0, t.cond)) (step (at_ 0x0000 0xE1FF [] zeros)) = some (0, .zro) := by decide
/-- 2.5: ST. -/
theorem test_st :
    get (fun t => rawRead t 0x300C) (step (at_ 0x3010 0x37FB [] #v[0, 0, 0, 0x1234, 0, 0, 0, 0]))
      = some 0x1234 := by decide
/-- 2.5: STI. -/
theorem test_sti :
    get (fun t => rawRead t 0x4000) (step (at_ 0x3000 0xB601 [(0x3002, 0x4000)] #v[0, 0, 0, 0x00AA, 0, 0, 0, 0]))
      = some 0x00AA := by decide
/-- 2.5: STR. -/
theorem test_str :
    get (fun t => rawRead t 0x401F) (step (at_ 0x3000 0x7D5F [] #v[0, 0, 0, 0, 0, 0x4000, 0xFFFF, 0]))
      = some 0xFFFF := by decide
/-- 2.6 K2: a ready poll. -/
theorem test_kbsr_ready :
    get (fun t => (t.reg 0, t.cond, rawRead t 0xFE00, rawRead t 0xFE02, t.console.pending))
      (step (withInput (at_ 0x3000 0x6040 [] #v[0, 0xFE00, 0, 0, 0, 0, 0, 0]) [.byte 0x61]))
      = some (0x8000, .neg, 0x8000, 0x0061, []) := by decide
/-- 2.6 K5: a failing poll reads as not ready, though a byte is pending. -/
theorem test_kbsr_poll_error :
    get (fun t => (t.reg 0, t.cond, rawRead t 0xFE02, t.console.pending))
      (step ((at_ 0x3000 0x6040 [] #v[0, 0xFE00, 0, 0, 0, 0, 0, 0]).setConsole
        { pending := [.byte 0x61], polls := [.ioError], output := [] }))
      = some (0, .zro, 0, [.byte 0x61]) := by decide
/-- 2.6 K6: a fetch at KBSR polls, and executes 0x0000. -/
theorem test_fetch_at_kbsr : get State.pc (step { at_ 0x3000 0 [] zeros with pc := 0xFE00 }) = some 0xFE01 := by decide
/-- 2.7: GETC, a byte and a zero byte. -/
theorem test_getc :
    get (fun t => (t.reg 0, t.cond, t.reg 7, t.console.output))
      (step (withInput (at_ 0x3000 0xF020 [] zeros) [.byte 0x78])) = some (0x0078, .pos, 0x3001, []) ∧
    get (fun t => (t.reg 0, t.cond)) (step (withInput (at_ 0x3000 0xF020 [] zeros) [.byte 0])) = some (0, .zro) := by
  decide
/-- P7: GETC at the end of input. -/
theorem test_getc_failure :
    get (fun t => (t.run, t.pc, t.reg 7, exitStatus t)) (step (withInput (at_ 0x3000 0xF020 [] zeros) [.failure]))
      = some (.fatal (.consoleReadFailure 0x3000), 0x3001, 0x3001, some 74) := by decide
/-- 2.7: OUT emits the low byte. -/
theorem test_out :
    get (fun t => (t.console.output, t.cond)) (step (at_ 0x3000 0xF021 [] #v[0x1241, 0, 0, 0, 0, 0, 0, 0]))
      = some ([0x41], .zro) := by decide
/-- 2.7: PUTS "Hi". -/
theorem test_puts :
    get (fun t => t.console.output)
      (step (at_ 0x3000 0xF022 [(0x3010, 0x0048), (0x3011, 0x0069)] #v[0x3010, 0, 0, 0, 0, 0, 0, 0]))
      = some [0x48, 0x69] := by decide
/-- 2.7: the PUTS scan wraps past 0xFFFF. -/
theorem test_puts_wraps :
    get (fun t => t.console.output)
      (step (at_ 0x3000 0xF022 [(0xFFFF, 0x0041)] #v[0xFFFF, 0, 0, 0, 0, 0, 0, 0])) = some [0x41] := by decide
/-- 2.7: IN prompts and echoes. -/
theorem test_in :
    get (fun t => (t.reg 0, t.cond, t.console.output)) (step (withInput (at_ 0x3000 0xF023 [] zeros) [.byte 0x37]))
      = some (0x0037, .pos, cfg.inPrompt ++ [0x37]) := by decide
/-- 2.7: PUTSP "Hel", and a zero low byte. -/
theorem test_putsp :
    get (fun t => t.console.output)
      (step (at_ 0x3000 0xF024 [(0x3020, 0x6548), (0x3021, 0x006C)] #v[0x3020, 0, 0, 0, 0, 0, 0, 0]))
      = some [0x48, 0x65, 0x6C] ∧
    get (fun t => t.console.output)
      (step (at_ 0x3000 0xF024 [(0x3020, 0x4100)] #v[0x3020, 0, 0, 0, 0, 0, 0, 0])) = some [0x00, 0x41] := by decide
/-- W8: HALT. -/
theorem test_halt :
    get (fun t => (t.run, t.pc, t.reg 7, t.console.output)) (step (at_ 0x3002 0xF025 [] zeros))
      = some (.halted, 0x3003, 0x3003, cfg.haltNotice) := by decide
/-- P6: an unknown vector. -/
theorem test_trap_unknown :
    get (fun t => (t.run, t.pc, t.reg 7, exitStatus t)) (step (at_ 0x3000 0xF026 [] zeros))
      = some (.fatal (.unknownTrapVector 0x26 0xF026 0x3000), 0x3001, 0x3001, some 127) := by decide
/-- 2.8: RTI. -/
theorem test_rti :
    get (fun t => (t.run, t.pc, t.reg 7)) (step (at_ 0x3000 0x8000 [] zeros))
      = some (.fatal (.unimplementedOpcode .rti 0x8000 0x3000), 0x3001, 0) := by decide
/-- 2.8: RES. -/
theorem test_res :
    get (fun t => (t.run, t.pc)) (step (at_ 0x4000 0xD123 [] zeros))
      = some (.fatal (.unimplementedOpcode .res 0xD123 0x4000), 0x4001) := by decide
/-- W9: loading words, and a load past 0xFFFF. -/
theorem test_load : loadImage 0 [0x30, 0x00, 0x12, 0x34] [] = .loaded [(0x3000, 0x1234)] ∧
    loadImage 0 [0xFF, 0xFF, 0x00, 0x01, 0x00, 0x02] [] = .failed := by decide
/-- R251: a failed load starts no run, a good one starts at PC_START. -/
theorem test_startRun : startRun cfg [[0xFF, 0xFF, 0x00, 0x01, 0x00, 0x02]] = .noRun 1 ∧
    startRun cfg [[0x30, 0x00, 0x12, 0x34]] = .started (State.boot cfg [(0x3000, 0x1234)]) := by decide
/-- The host's word placement runs as the first instruction after reset: LEA R0, +2. -/
theorem test_withFetchWord : get (fun t => t.reg 0) (step (State.reset.withFetchWord 16 0xE002)) = some 0x3003 := by
  decide

/-! ### Witnesses: states that meet the hypotheses of each statement -/

/-- A state whose memory has no zero word: every cell is MEM_INIT = 1. -/
def fullMem : State := { at_ 0x3000 0 [] zeros with params := { cfg with memInit := 1 }, mem := [] }

/-- A state whose string reads intercept. -/
def intercepting : State := { at_ 0x3000 0xF022 [] zeros with params := { cfg with stringReadIntercepts := true } }

/-- A state in the middle of a step. -/
def scanOf (u : UnfinishedStep) (s : State) : State := s.setUnfinished (some u)

/-- An unfinished intercepting PUTSP on a console that always has another byte ready, no cell zero. -/
def alwaysReady : State :=
  { scanOf (.putsp 5) fullMem with
    params := { cfg with memInit := 1, stringReadIntercepts := true }
    hostCycle := [.supply [.byte 0x61]] }

theorem at_wf_witness : cfg.wf ∧ (at_ 0x3000 0x3201 [] zeros).MemWf ∧ intercepting.params.wf ∧ intercepting.MemWf := by
  decide

theorem witness_DecodeOfEncodeIsIdentity : (Instr.addReg 2 0 1).wellFormed = true := by decide

/-- For the statements whose hypothesis is a running state and a next state (CondWrittenOnlyBySetcc,
RegistersWrittenOnlyAsListed, PcAfterEachInstruction, ConsoleWrittenOnlyByTraps, OnlyListedInstructionsEndTheRun). -/
theorem witness_running_next : (at_ 0x3000 0 [] zeros).run = .running ∧ (at_ 0x3000 0 [] zeros).unfinished = none ∧
    exec (.lea 1 2) (at_ 0x3000 0 [] zeros) = .next (writeBack (at_ 0x3000 0 [] zeros) 1 0x3002) ∧
    (2 : RegIdx) ∉ gprWrites (.lea 1 2) := ⟨rfl, rfl, rfl, by decide⟩

/-- CondWrittenOnlyBySetcc: the clauses of a listed instruction, one that reaches its setcc and one that blocks. -/
theorem witness_CondWrittenOnlyBySetcc :
    get (fun t => (t.run, t.unfinished, t.cond)) (exec (.lea 1 2) (at_ 0x3000 0 [] zeros)) = some (.running, none, .pos) ∧
    get (fun t => (t.unfinished, t.cond)) (exec .getc (at_ 0x3000 0 [] zeros)) = some (some .getc, .zro) ∧
    condSource (.lea 1 2) = some 1 ∧ condSource .getc = some 0 ∧ condSource .out = none := by decide

theorem witness_OnlyBranchReadsCond : ∀ nzp off9, Instr.ret ≠ .br nzp off9 := by intro _ _ h; cases h

/-- MemoryChangedOnlyByStoresAndPolls: a store elsewhere with no poll, and a poll with a third cell. -/
theorem witness_MemoryChangedOnlyByStoresAndPolls :
    (∃ t, exec (.st 1 1) (at_ 0x3000 0 [] zeros) = .next t) ∧
    storeAddr (.st 1 1) (at_ 0x3000 0 [] zeros) ≠ some 0x4000 ∧ mayPoll (.st 1 1) (at_ 0x3000 0 [] zeros) = false ∧
    mayPoll (.ldr 0 1 0) (at_ 0x3000 0 [] #v[0, 0xFE00, 0, 0, 0, 0, 0, 0]) = true ∧
    (0x4000 : Word) ≠ cfg.kbsrAddr ∧ (0x4000 : Word) ≠ cfg.kbdrAddr := ⟨⟨_, rfl⟩, by decide, by decide, by decide, by decide, by decide⟩

theorem witness_ReadInterceptsOnlyKbsr : (0x3000 : Word) ≠ (at_ 0x3000 0 [] zeros).params.kbsrAddr := by decide

/-- KbsrPollReady: a byte pending, the poll answers. -/
theorem witness_KbsrPollReady : (withInput (at_ 0x3000 0 [] zeros) [.byte 7]).params.wf ∧
    (withInput (at_ 0x3000 0 [] zeros) [.byte 7]).MemWf ∧
    (withInput (at_ 0x3000 0 [] zeros) [.byte 7]).console.pending = [.byte 7] ∧
    (withInput (at_ 0x3000 0 [] zeros) [.byte 7]).console.polls.head? ≠ some .ioError := by decide

/-- KbsrPollNotReady: each of its three causes. -/
theorem witness_KbsrPollNotReady : (at_ 0x3000 0 [] zeros).MemWf ∧ (at_ 0x3000 0 [] zeros).console.pending = [] ∧
    (withInput (at_ 0x3000 0 [] zeros) [.failure]).console.pending.head? = some .failure ∧
    ((at_ 0x3000 0 [] zeros).setConsole { pending := [], polls := [.ioError], output := [] }).console.polls.head?
      = some .ioError := by decide

/-- StoreIsSeenByNextFetch: ST to the address of the next instruction. -/
theorem witness_StoreIsSeenByNextFetch : (at_ 0x3000 0 [] zeros).MemWf ∧
    exec (.st 1 0) (at_ 0x3000 0 [] zeros) = .next (memWrite (at_ 0x3000 0 [] zeros) 0x3000 0) ∧
    storeAddr (.st 1 0) (at_ 0x3000 0 [] zeros) = some 0x3000 ∧
    (memWrite (at_ 0x3000 0 [] zeros) 0x3000 0).pc = 0x3000 ∧
    (0x3000 : Word) ≠ (at_ 0x3000 0 [] zeros).params.kbsrAddr := ⟨by decide, rfl, by decide, by decide, by decide⟩

/-- TrapUnknownVectorIsFatal: the vectors on both sides of the service range. -/
theorem witness_TrapUnknownVectorIsFatal : (0x1F#8).toNat < 0x20 ∧ 0x25 < (0x26#8).toNat := by decide

/-- GetcReadsAByte, InPromptsReadsAndEchoes, ConsoleReadFailureIsFatal, BlockingReadsWaitForInput. -/
theorem witness_console_pending : (withInput (at_ 0x3000 0 [] zeros) [.byte 7]).console.pending = .byte 7 :: [] ∧
    (withInput (at_ 0x3000 0 [] zeros) [.failure]).console.pending = .failure :: [] ∧
    (at_ 0x3000 0 [] zeros).console.pending = [] := by decide

/-- PutsEmitsTheString, PutspEmitsThePackedString: an empty string, a string of one word, and an intercepting scan that
ends at KBSR_ADDR. -/
theorem witness_ScanEndsAfter : ScanEndsAfter (at_ 0x3000 0 [] zeros) 0x4000 0 ∧
    ScanEndsAfter (at_ 0x3000 1 [] zeros) 0x3000 1 ∧ ScanEndsAfter intercepting 0xFE00 0 :=
  ⟨⟨by decide, by decide, by decide⟩, ⟨by decide, by decide, by decide⟩, ⟨by decide, by decide, by decide⟩⟩

/-- EveryInstructionRuns, UnfinishedScanGoesOn: a lap with no zero word. -/
theorem witness_ScanMeetsNoZero : ∀ a, ScanMeetsNoZero fullMem a :=
  fun _ _ _ => (by decide : (1 : Word) ≠ 0)

/-- UnfinishedScanGoesOn: an unfinished PUTS and PUTSP; the scan ends or meets no zero word. -/
theorem witness_UnfinishedScanGoesOn :
    (scanOf (.puts 0x4000) (at_ 0x3000 0 [] zeros)).run = .running ∧
    (scanOf (.puts 0x4000) (at_ 0x3000 0 [] zeros)).aborted = false ∧
    (scanOf (.putsp 0x4000) (at_ 0x3000 0 [] zeros)).unfinished = some (.putsp 0x4000) ∧
    ScanEndsAfter (hostTurn (scanOf (.puts 0x4000) (at_ 0x3000 0 [] zeros))) 0x4000 0 ∧
    ScanMeetsNoZero (hostTurn (scanOf (.puts 0x4000) fullMem)) 0x4000 :=
  ⟨by decide, by decide, by decide, ⟨by decide, by decide, by decide⟩, fun _ _ => (by decide : (1 : Word) ≠ 0)⟩

/-- StringScanHangsIffNoZeroWord: plain reads and no zero word, and one zero word. -/
theorem witness_scan_hangs_plain : fullMem.params.stringReadIntercepts = false ∧ (∀ a, rawRead fullMem a ≠ 0) ∧
    (scanOf (.puts 0) fullMem).run = .running ∧ (scanOf (.puts 0) fullMem).aborted = false ∧
    rawRead (at_ 0x3000 0 [] zeros) 0 = 0 :=
  ⟨rfl, fun _ => (by decide : (1 : Word) ≠ 0), by decide, by decide, by decide⟩

/-- StringScanHangsIffNoZeroWord: intercepting reads, an always-ready console, no zero word elsewhere; and no byte ready. -/
theorem witness_scan_hangs_intercepting : alwaysReady.params.stringReadIntercepts = true ∧ alwaysReady.params.wf ∧
    alwaysReady.MemWf ∧ AlwaysReady alwaysReady 0x61 ∧ (∀ c, rawRead alwaysReady c ≠ 0) ∧
    alwaysReady.unfinished = some (.putsp 5) ∧ intercepting.MemWf ∧ intercepting.console.pending = [] :=
  ⟨rfl, by decide, by decide, ⟨rfl, rfl, rfl, rfl⟩, fun _ => (by decide : (1 : Word) ≠ 0), rfl, by decide, rfl⟩

/-- StepRunsTheDecodedInstruction, with and without a host event due. -/
theorem witness_StepRunsTheDecodedInstruction : (at_ 0x3000 0x1401 [] zeros).run = .running ∧
    (at_ 0x3000 0x1401 [] zeros).aborted = false ∧ (hostTurn (at_ 0x3000 0x1401 [] zeros)).aborted = false ∧
    (at_ 0x3000 0x1401 [] zeros).unfinished = none ∧
    decode (memRead (hostTurn (at_ 0x3000 0x1401 [] zeros)) 0x3000).1 = .addReg 2 0 1 ∧
    (at_ 0x3000 0x1401 [] zeros).host = [] ∧ (at_ 0x3000 0x1401 [] zeros).hostCycle = [] ∧
    (hostTurn { at_ 0x3000 0x1401 [] zeros with host := [.supply [.byte 1]] }).aborted = false := by decide

/-- StoppedEngineTakesNoStep: each of its three causes. -/
theorem witness_StoppedEngineTakesNoStep : ({ at_ 0x3000 0 [] zeros with aborted := true }).aborted = true ∧
    (haltEngine (at_ 0x3000 0 [] zeros)).aborted = false ∧ (haltEngine (at_ 0x3000 0 [] zeros)).run = .halted ∧
    (raiseFatal (at_ 0x3000 0 [] zeros) (.consoleReadFailure 0)).aborted = false ∧
    (raiseFatal (at_ 0x3000 0 [] zeros) (.consoleReadFailure 0)).run = .fatal (.consoleReadFailure 0) := by decide

/-- HostAbortEndsTheRun: an abort at a boundary, in a blocked read and in a scan. BlockedReadCompletesOnInput: each act of
the host on a blocked GETC or IN. -/
theorem witness_host : ({ at_ 0x3000 0 [] zeros with host := [.abort] }).unfinished = none ∧
    ({ scanOf .getc (at_ 0x3000 0 [] zeros) with host := [.abort] }).host = .abort :: [] ∧
    ({ scanOf (.puts 0) (at_ 0x3000 0 [] zeros) with host := [.abort] }).unfinished = some (.puts 0) ∧
    (scanOf .getc (at_ 0x3000 0 [] zeros)).unfinished = some .getc ∧
    (scanOf .inp (at_ 0x3000 0 [] zeros)).unfinished = some .inp ∧
    (scanOf .getc (at_ 0x3000 0 [] zeros)).run = .running ∧ (scanOf .getc (at_ 0x3000 0 [] zeros)).aborted = false ∧
    (scanOf .getc (at_ 0x3000 0 [] zeros)).console.pending = [] ∧ (scanOf .getc (at_ 0x3000 0 [] zeros)).host = [] ∧
    (scanOf .getc (at_ 0x3000 0 [] zeros)).hostCycle = [] ∧
    ({ at_ 0x3000 0 [] zeros with host := [.supply [.byte 7, .failure]] }).host = .supply (.byte 7 :: [.failure]) :: [] ∧
    ({ at_ 0x3000 0 [] zeros with host := [.supply [.failure]] }).host = .supply (.failure :: []) :: [] ∧
    ({ at_ 0x3000 0 [] zeros with host := [.supply []] }).host = .supply [] :: [] ∧
    ({ at_ 0x3000 0 [] zeros with host := [.quiet] }).host = .quiet :: [] := by decide

/-- R225: an abort that comes in a scan waits for the end of the step. -/
theorem test_abort_waits_for_scan :
    get (fun t => (t.aborted, t.unfinished, t.host))
      (step { scanOf (.puts 0x4000) (at_ 0x3000 0 [] zeros) with host := [.abort] }) = some (false, none, [.abort]) := by
  decide

/-- The host's cycle goes on once the schedule is used up. -/
theorem test_hostCycle :
    get (fun t => (t.reg 0, t.host))
      (step { scanOf .getc (at_ 0x3000 0 [] zeros) with hostCycle := [.supply [.byte 7], .quiet] })
      = some (7, [.quiet]) := by decide

/-- FatalIsPrecise: a blocked GETC in a good state that fails. -/
theorem witness_FatalIsPrecise_blocked : ∃ s t : State, s.Inv ∧ s.run = .running ∧ s.unfinished ≠ none ∧
    step s = .next t ∧ t.run = .fatal (.consoleReadFailure s.oldPc) :=
  ⟨{ scanOf .getc (at_ 0x3001 0 [] #v[0, 0, 0, 0, 0, 0, 0, 0x3001]) with oldPc := 0x3000, host := [.supply [.failure]] },
    _, ⟨by decide, by decide, fun _ => by decide, fun _ h => (by cases h), fun h => (by cases h)⟩, rfl, by decide, rfl, rfl⟩

/-- FatalIsPrecise: the step of RTI enters FATAL. -/
theorem witness_FatalIsPrecise : (at_ 0x3000 0x8000 [] zeros).run = .running ∧
    (at_ 0x3000 0x8000 [] zeros).unfinished = none ∧
    ∃ t, step (at_ 0x3000 0x8000 [] zeros) = .next t ∧ t.run = .fatal (.unimplementedOpcode .rti 0x8000 0x3000) :=
  ⟨rfl, rfl, _, rfl, rfl⟩

/-- ExitStatusOfEachOutcome: a state in each of its six cases. -/
theorem witness_ExitStatusOfEachOutcome : (haltEngine (at_ 0x3000 0 [] zeros)).run = .halted ∧
    (raiseFatal (at_ 0x3000 0 [] zeros) (.unimplementedOpcode .res 1 2)).run = .fatal (.unimplementedOpcode .res 1 2) ∧
    (raiseFatal (at_ 0x3000 0 [] zeros) (.unknownTrapVector 0 1 2)).run = .fatal (.unknownTrapVector 0 1 2) ∧
    (raiseFatal (at_ 0x3000 0 [] zeros) (.consoleReadFailure 2)).run = .fatal (.consoleReadFailure 2) ∧
    (at_ 0x3000 0 [] zeros).run = .running ∧ (at_ 0x3000 0 [] zeros).aborted = false ∧
    ({ at_ 0x3000 0 [] zeros with aborted := true }).aborted = true := by decide

/-- LoadStoresTheImage: a load that fits to the last cell, and one that does not. -/
theorem witness_LoadStoresTheImage : Memory.wf 0 [] ∧ 65535 < 65536 ∧
    loadWords 0 [1] 65535 [] = some [(65535, 1)] ∧ loadWords 0 [1, 2] 65535 [] = none := by decide

/-- InvariantHoldsAtReset: legal parameters and a canonical memory. -/
theorem witness_InvariantHoldsAtReset : cfg.wf ∧ Memory.wf cfg.memInit [(0x3000, 1)] := by decide

/-- StepKeepsTheInvariant: a good running state, whose next step is a state. -/
theorem witness_StepKeepsTheInvariant : (at_ 0x3000 0x8000 [] zeros).Inv ∧
    ∃ t, step (at_ 0x3000 0x8000 [] zeros) = .next t :=
  ⟨⟨by decide, by decide, fun h => absurd rfl h, fun _ h => (by cases h), fun h => (by cases h)⟩, _, rfl⟩

end Sys2Proof.Tests
end

/-! ### Sign extension (spec/00_scope.md R9) -/

namespace Sys2Proof.Machine

theorem sext_of_msb_false {n : Nat} {v : BitVec n} (hpos : v.msb = false) : sext v = v.setWidth 16 :=
  BitVec.signExtend_eq_setWidth_of_msb_false hpos

/-- The obligation's mask is shifted as a natural number and truncated to a word afterwards. -/
theorem getLsbD_ones_shiftLeft (n k : Nat) (hk : k < 16) :
    ((0xFFFF <<< n : Nat) : Word).getLsbD k = decide (n ≤ k) := by
  have hones : 0xFFFF = 2 ^ 16 - 1 := rfl
  have hlt : k - n < 16 := by omega
  rw [hones, BitVec.natCast_eq_ofNat, BitVec.getLsbD_ofNat, Nat.testBit_shiftLeft, Nat.testBit_two_pow_sub_one]
  simp [hk, hlt]

/-- Bit by bit: below `n` both sides hold the bit of `v`, from `n` on a one. -/
theorem sext_of_msb_true {n : Nat} {v : BitVec n} (hneg : v.msb = true) :
    sext v = v.setWidth 16 ||| ((0xFFFF <<< n : Nat) : Word) := by
  refine BitVec.eq_of_getLsbD_eq fun k hk => ?_
  rw [sext, BitVec.getLsbD_signExtend, BitVec.getLsbD_or, getLsbD_ones_shiftLeft n k hk, BitVec.getLsbD_setWidth]
  by_cases hlt : k < n
  · simp [hk, hlt]
  · simp [hk, hlt, hneg, Nat.le_of_not_lt hlt]

theorem toInt_sext {n : Nat} (hn : n ≤ 16) (v : BitVec n) : (sext v).toInt = v.toInt :=
  BitVec.toInt_signExtend_of_le hn

/-- R9's formula and its signed value, at every width a word holds. -/
theorem sext_exact {n : Nat} (hn : n ≤ 16) (v : BitVec n) :
    sext v = (if v.msb then v.setWidth 16 ||| ((0xFFFF <<< n : Nat) : Word) else v.setWidth 16) ∧
      (sext v).toInt = v.toInt := by
  refine ⟨?_, toInt_sext hn v⟩
  split
  case isTrue hneg => exact sext_of_msb_true hneg
  case isFalse hpos => exact sext_of_msb_false (Bool.eq_false_of_not_eq_true hpos)

/-- Settles O6: the formula holds at every width up to 16, and 5, 6, 9 and 11 are such widths. -/
theorem signExtensionIsExact : Obligations.SignExtensionIsExact :=
  ⟨sext_exact (by decide), sext_exact (by decide), sext_exact (by decide), sext_exact (by decide)⟩

end Sys2Proof.Machine

/-! ### What an instruction can do (spec/10_state.md R21, R23, R29, R40)

`exec_next` says it once for every instruction, against the tables of the spec (`condSource`, `gprWrites`, `pcAfter`);
the claims over all instructions are case analyses of `ExecEnd`. -/

namespace Sys2Proof.Machine

/-- From `s` to `t` reads have happened, which may poll the keyboard, and the bytes `bs` have been written: memory and
console alone can differ, and a canonical memory is still canonical. -/
structure Emits (s : State) (bs : List Byte) (t : State) : Prop extends SameButMemConsole s t where
  memWf : s.MemWf → t.MemWf
  output : t.console.output = s.console.output ++ bs

theorem Emits.refl (s : State) : Emits s [] s := ⟨.refl s, id, (List.append_nil _).symm⟩

theorem Emits.trans {s t u : State} {bs cs : List Byte} (h : Emits s bs t) (k : Emits t cs u) :
    Emits s (bs ++ cs) u where
  toSameButMemConsole := h.toSameButMemConsole.trans k.toSameButMemConsole
  memWf := k.memWf ∘ h.memWf
  output := by rw [k.output, h.output, List.append_assoc]

theorem Emits.conWrite (s : State) (bs : List Byte) : Emits s bs (conWrite s bs) := ⟨.conWrite s bs, id, rfl⟩

/-- Consuming a console reply. -/
theorem Emits.setPending (s : State) (rs : List ReadReply) :
    Emits s [] (s.setConsole { s.console with pending := rs }) :=
  ⟨.setConsole s _, id, (List.append_nil _).symm⟩

theorem Emits.memRead (s : State) (a : Word) : Emits s [] (memRead s a).2 :=
  ⟨memReadState_same s a, memReadState_wf s a, by rw [List.append_nil]; exact memReadState_output s a⟩

theorem Emits.strRead (s : State) (a : Word) : Emits s [] (strRead s a).2 := by
  unfold Machine.strRead
  split
  · exact .memRead s a
  · exact .refl s

theorem Emits.stringScan (emit : Word → List Byte) (fuel : Nat) : ∀ (s : State) (a : Word),
    ∃ bs, Emits s bs (stringScan emit fuel s a).1 := by
  induction fuel with
  | zero => intro s a; exact ⟨[], .refl s⟩
  | succ n ih =>
    intro s a
    unfold Machine.stringScan
    split
    case isTrue => exact ⟨[], .strRead s a⟩
    case isFalse =>
      obtain ⟨bs, h⟩ := ih (Machine.conWrite (Machine.strRead s a).2 (emit (Machine.strRead s a).1)) (a + 1)
      exact ⟨_, ((Emits.strRead s a).trans (.conWrite _ _)).trans h⟩

/-! ### The ends of a console read and of a scan's turn -/

/-- How a turn of GETC or IN ends, begun or resumed in `s`: it blocks, it fails, or it puts a byte into R0 (R181, R184,
spec/60_exceptions.md R223, R236). -/
inductive ReadEnd (s : State) : State → Prop
  | blocked {bs : List Byte} {u : State} (m : UnfinishedStep) (h : Emits s bs u) :
      ReadEnd s (u.setUnfinished (some m))
  | failed {bs : List Byte} {u : State} (h : Emits s bs u) :
      ReadEnd s (raiseFatal (u.setUnfinished none) (.consoleReadFailure u.oldPc))
  | delivered {bs : List Byte} {u : State} (b : Byte) (h : Emits s bs u) :
      ReadEnd s (inputToR0 (u.setUnfinished none) b)

/-- What was emitted before the read, the prompt of IN, is part of how the turn ends. -/
theorem ReadEnd.after {s u t : State} {bs : List Byte} (h : Emits s bs u) (k : ReadEnd u t) : ReadEnd s t := by
  cases k with
  | blocked m k => exact .blocked m (h.trans k)
  | failed k => exact .failed (h.trans k)
  | delivered b k => exact .delivered b (h.trans k)

theorem getcRead_next (s : State) : ∃ t, getcRead s = .next t ∧ ReadEnd s t := by
  obtain ⟨-, h⟩ | ⟨rs, -, h⟩ | ⟨b, rs, -, h⟩ := getcRead_cases s
  · exact ⟨_, h, .blocked .getc (.refl s)⟩
  · exact ⟨_, h, .failed (.setPending s rs)⟩
  · exact ⟨_, h, .delivered b (.setPending s rs)⟩

theorem inpRead_next (s : State) : ∃ t, inpRead s = .next t ∧ ReadEnd s t := by
  obtain ⟨-, h⟩ | ⟨rs, -, h⟩ | ⟨b, rs, -, h⟩ := inpRead_cases s
  · exact ⟨_, h, .blocked .inp (.refl s)⟩
  · exact ⟨_, h, .failed (.setPending s rs)⟩
  · exact ⟨_, h, .delivered b ((Emits.setPending s rs).trans (.conWrite _ [b]))⟩

theorem inpService_next (s : State) : ∃ t, inpService s = .next t ∧ ReadEnd s t := by
  obtain ⟨t, e, h⟩ := inpRead_next (conWrite s s.params.inPrompt)
  exact ⟨t, e, h.after (.conWrite s _)⟩

/-- How OUT and a turn of a scan end: bytes are emitted, and the step is completed or goes on (spec/43_trap.md R185). -/
inductive OutputEnd (s : State) : State → Prop
  | emitted {bs : List Byte} {u : State} (o : Option UnfinishedStep) (h : Emits s bs u) :
      OutputEnd s (u.setUnfinished o)

theorem scanTurn_next (emit : Word → List Byte) (mark : Word → UnfinishedStep) (a : Word) (s : State) :
    ∃ t, scanTurn emit mark a s = .next t ∧ OutputEnd s t := by
  obtain ⟨bs, h⟩ := Emits.stringScan emit 65536 s a
  exact ⟨_, scanTurn_eq emit mark a s, .emitted _ h⟩

/-- What holds of a result's next state holds of the next state. -/
theorem holds_of_next {r : Result} {t : State} {P : State → Prop} (k : ∃ t, r = .next t ∧ P t) (h : r = .next t) :
    P t := by
  obtain ⟨t', e, k⟩ := k
  cases e.symm.trans h
  exact k

/-- A further turn of a step that has not completed ends as a console read or a scan's turn does. -/
theorem resumeStep_cases {m : UnfinishedStep} {s t : State} (h : resumeStep m s = .next t) :
    ReadEnd s t ∨ OutputEnd s t := by
  cases m with
  | getc => exact .inl (holds_of_next (getcRead_next s) h)
  | inp => exact .inl (holds_of_next (inpRead_next s) h)
  | puts a => exact .inr (holds_of_next (scanTurn_next _ _ a s) h)
  | putsp a => exact .inr (holds_of_next (scanTurn_next _ _ a s) h)

/-! ### The ends of an instruction -/

/-- What the spec's tables say of a TRAP instruction: `c` its flag source (R23), `g` the registers it may write (R21);
it leaves pc incremented (R29). -/
structure TrapRow (i : Instr) (c : Option RegIdx) (g : List RegIdx) : Prop where
  cond : condSource i = c
  gprs : gprWrites i = g
  pc : ∀ s, pcAfter i s = s.pc
  opcode : opcodeOf ((encode i).extractLsb' 12 4) = .trap

/-- How an instruction ends that runs in `s`, pc incremented. -/
inductive ExecEnd (s : State) (i : Instr) : State → Prop
  /-- ADD, AND, NOT, LD, LDI, LDR, LEA. -/
  | writesBack {d : RegIdx} {u : State} (v : Word) (hc : condSource i = some d) (hg : gprWrites i = [d])
      (hp : pcAfter i s = s.pc) (h : Emits s [] u) : ExecEnd s i (writeBack u d v)
  /-- ST, STI, STR. -/
  | stores {u : State} (a v : Word) (hc : condSource i = none) (hp : pcAfter i s = s.pc) (h : Emits s [] u) :
      ExecEnd s i (memWrite u a v)
  /-- BR, JMP, RET. -/
  | jumps (hc : condSource i = none) : ExecEnd s i (s.setPc (pcAfter i s))
  /-- JSR, JSRR. -/
  | links (hc : condSource i = none) (hg : gprWrites i = [7]) : ExecEnd s i ((s.setReg 7 s.pc).setPc (pcAfter i s))
  /-- RTI, RES. -/
  | unimplemented (op : UnimplementedOp) (hc : condSource i = none) (hp : pcAfter i s = s.pc) :
      ExecEnd s i (raiseFatal s (.unimplementedOpcode op s.instr s.oldPc))
  /-- GETC, IN. -/
  | reads {t : State} (row : TrapRow i (some 0) [7, 0]) (h : ReadEnd (trapEntry s) t) : ExecEnd s i t
  /-- OUT, PUTS, PUTSP. -/
  | emits {t : State} (row : TrapRow i none [7]) (h : OutputEnd (trapEntry s) t) : ExecEnd s i t
  /-- HALT. -/
  | halts {bs : List Byte} {u : State} (row : TrapRow i none [7]) (h : Emits (trapEntry s) bs u) :
      ExecEnd s i (haltEngine u)
  /-- TRAP with a vector of no service. -/
  | unknownVector (v : Byte) (row : TrapRow i none [7]) :
      ExecEnd s i (raiseFatal (trapEntry s) (.unknownTrapVector v s.instr s.oldPc))

/-- BR leaves pc where the truth table of R132 says, and does nothing else. -/
theorem exec_br (nzp : BitVec 3) (off9 : BitVec 9) (s : State) :
    exec (.br nzp off9) s = .next (s.setPc (pcAfter (.br nzp off9) s)) := by
  simp only [exec, execBr, branchTaken_eq, pcAfter]
  split <;> rfl

/-- JSRR through R7 falls through: its base is read after the link (spec/41_control.md R138, D7). -/
theorem exec_jsrr (base : RegIdx) (s : State) :
    exec (.jsrr base) s = .next ((s.setReg 7 s.pc).setPc (pcAfter (.jsrr base) s)) :=
  congrArg (fun p => Host.Outcome.next ((s.setReg 7 s.pc).setPc p)) (reg_setReg s 7 base s.pc)

section Services
variable {i : Instr} (s : State)

theorem exec_getc_next (row : TrapRow i (some 0) [7, 0]) : ∃ t, exec .getc s = .next t ∧ ExecEnd s i t :=
  (getcRead_next (trapEntry s)).imp fun _ ⟨e, h⟩ => ⟨e, .reads row h⟩

theorem exec_inp_next (row : TrapRow i (some 0) [7, 0]) : ∃ t, exec .inp s = .next t ∧ ExecEnd s i t :=
  (inpService_next (trapEntry s)).imp fun _ ⟨e, h⟩ => ⟨e, .reads row h⟩

theorem exec_out_next (row : TrapRow i none [7]) : ∃ t, exec .out s = .next t ∧ ExecEnd s i t :=
  ⟨_, rfl, .emits row (.emitted s.unfinished (.conWrite (trapEntry s) _))⟩

theorem exec_puts_next (row : TrapRow i none [7]) : ∃ t, exec .puts s = .next t ∧ ExecEnd s i t :=
  (scanTurn_next emitPuts .puts _ (trapEntry s)).imp fun _ ⟨e, h⟩ => ⟨e, .emits row h⟩

theorem exec_putsp_next (row : TrapRow i none [7]) : ∃ t, exec .putsp s = .next t ∧ ExecEnd s i t :=
  (scanTurn_next emitPutsp .putsp _ (trapEntry s)).imp fun _ ⟨e, h⟩ => ⟨e, .emits row h⟩

theorem exec_halt_next (row : TrapRow i none [7]) : ∃ t, exec .halt s = .next t ∧ ExecEnd s i t :=
  ⟨_, rfl, .halts row (.conWrite (trapEntry s) _)⟩

end Services

/-- A TRAP of no service writes R7 alone and sets no flag. -/
theorem trapRow_unknown {v : BitVec 8} (hv : v.toNat < 0x20 ∨ 0x25 < v.toNat) : TrapRow (.trap v) none [7] := by
  have hread : ¬(v = 0x20 ∨ v = 0x23) := by rintro (rfl | rfl) <;> simp at hv
  have hrow : opcodeOf ((0xF000 : Word).extractLsb' 12 4) = .trap := by decide
  exact ⟨if_neg hread, if_neg hread, fun _ => rfl, (congrArg opcodeOf (Laws.EncodesOpcode.trap v)).trans hrow⟩

/-- TRAP ends as the service of its vector, or is FATAL (spec/43_trap.md R180, R187). -/
theorem exec_trap_next (v : BitVec 8) (s : State) : ∃ t, exec (.trap v) s = .next t ∧ ExecEnd s (.trap v) t := by
  obtain ⟨rfl, e⟩ | ⟨rfl, e⟩ | ⟨rfl, e⟩ | ⟨rfl, e⟩ | ⟨rfl, e⟩ | ⟨rfl, e⟩ | ⟨hv, e⟩ := exec_trap_cases v s <;> rw [e]
  · exact exec_getc_next s ⟨rfl, rfl, fun _ => rfl, by decide⟩
  · exact exec_out_next s ⟨rfl, rfl, fun _ => rfl, by decide⟩
  · exact exec_puts_next s ⟨rfl, rfl, fun _ => rfl, by decide⟩
  · exact exec_inp_next s ⟨rfl, rfl, fun _ => rfl, by decide⟩
  · exact exec_putsp_next s ⟨rfl, rfl, fun _ => rfl, by decide⟩
  · exact exec_halt_next s ⟨rfl, rfl, fun _ => rfl, by decide⟩
  · exact ⟨_, rfl, .unknownVector v (trapRow_unknown hv)⟩

/-- Every instruction answers a next state, by one of the ends. -/
theorem exec_next (i : Instr) (s : State) : ∃ t, exec i s = .next t ∧ ExecEnd s i t := by
  cases i with
  | addReg | addImm | andReg | andImm | not | lea => exact ⟨_, rfl, .writesBack _ rfl rfl rfl (.refl s)⟩
  | ld | ldr => exact ⟨_, rfl, .writesBack _ rfl rfl rfl (.memRead s _)⟩
  | ldi => exact ⟨_, rfl, .writesBack _ rfl rfl rfl ((Emits.memRead s _).trans (.memRead _ _))⟩
  | st | str => exact ⟨_, rfl, .stores _ _ rfl rfl (.refl s)⟩
  | sti => exact ⟨_, rfl, .stores _ _ rfl rfl (.memRead s _)⟩
  | br nzp off9 => exact ⟨_, exec_br nzp off9 s, .jumps rfl⟩
  | jmp | ret => exact ⟨_, rfl, .jumps rfl⟩
  | jsr => exact ⟨_, rfl, .links rfl rfl⟩
  | jsrr base => exact ⟨_, exec_jsrr base s, .links rfl rfl⟩
  | trap v => exact exec_trap_next v s
  | getc => exact exec_getc_next s ⟨rfl, rfl, fun _ => rfl, by decide⟩
  | out => exact exec_out_next s ⟨rfl, rfl, fun _ => rfl, by decide⟩
  | puts => exact exec_puts_next s ⟨rfl, rfl, fun _ => rfl, by decide⟩
  | inp => exact exec_inp_next s ⟨rfl, rfl, fun _ => rfl, by decide⟩
  | putsp => exact exec_putsp_next s ⟨rfl, rfl, fun _ => rfl, by decide⟩
  | halt => exact exec_halt_next s ⟨rfl, rfl, fun _ => rfl, by decide⟩
  | rti | res => exact ⟨_, rfl, .unimplemented _ rfl rfl⟩

theorem execEnd_of_next {i : Instr} {s t : State} (h : exec i s = .next t) : ExecEnd s i t :=
  holds_of_next (exec_next i s) h

end Sys2Proof.Machine

/-! ### The step, from one boundary to the next (spec/10_state.md R28, R31, R42) -/

namespace Sys2Proof.Machine

/-- The host's turn leaves all the machine's own state alone. -/
theorem hostTurn_frame (s : State) : ∃ es rs ab, hostTurn s =
    { s with host := es, console := { s.console with pending := s.console.pending ++ rs }, aborted := ab } := by
  obtain ⟨es, rs, ab, h, -⟩ := hostTurn_cases s
  exact ⟨es, rs, ab, h⟩

@[simp] theorem hostTurn_pc (s : State) : (hostTurn s).pc = s.pc := by
  obtain ⟨_, _, _, h⟩ := hostTurn_frame s
  rw [h]

@[simp] theorem hostTurn_run (s : State) : (hostTurn s).run = s.run := by
  obtain ⟨_, _, _, h⟩ := hostTurn_frame s
  rw [h]

@[simp] theorem hostTurn_unfinished (s : State) : (hostTurn s).unfinished = s.unfinished := by
  obtain ⟨_, _, _, h⟩ := hostTurn_frame s
  rw [h]

theorem hostTurn_keeps_inv {s : State} (h : s.Inv) : (hostTurn s).Inv := by
  obtain ⟨_, _, _, e⟩ := hostTurn_frame s
  rw [e]
  exact ⟨h.params, h.mem, h.unfinished, h.fatal, h.halted⟩

/-- A running engine with no unfinished step runs the word it fetches after the host's turn. -/
theorem step_of_idle {s : State} (hr : s.run = .running) (ha : s.aborted = false)
    (ht : (hostTurn s).aborted = false) (hu : s.unfinished = none) :
    step s = exec (decode (fetch (hostTurn s)).instr) (fetch (hostTurn s)) := by
  simp [step, hr, ha, ht, hu]

theorem step_of_abort {s : State} (hr : s.run = .running) (ha : s.aborted = false)
    (ht : (hostTurn s).aborted = true) : step s = .next (hostTurn s) := by
  simp [step, hr, ha, ht]

theorem step_of_aborted {s : State} (ha : s.aborted = true) : step s = .fault .runAborted := by
  simp [step, ha]

theorem step_of_halted {s : State} (ha : s.aborted = false) (hr : s.run = .halted) :
    step s = .fault .engineHalted := by
  simp [step, ha, hr]

theorem step_of_fatal {s : State} {r : FatalReason} (ha : s.aborted = false) (hr : s.run = .fatal r) :
    step s = .fault .engineFatal := by
  simp [step, ha, hr]

theorem step_of_unfinished {s : State} {m : UnfinishedStep} (hr : s.run = .running) (ha : s.aborted = false)
    (ht : (hostTurn s).aborted = false) (hu : s.unfinished = some m) : step s = resumeStep m (hostTurn s) := by
  simp [step, hr, ha, ht, hu]

/-- A step that answers a next state is a running engine's: the host ends the run, an unfinished step goes on, or an
instruction runs. -/
theorem step_cases {s t : State} (h : step s = .next t) : s.run = .running ∧
    (t = hostTurn s ∨ (∃ m, s.unfinished = some m ∧ resumeStep m (hostTurn s) = .next t) ∨
      (s.unfinished = none ∧ exec (decode (fetch (hostTurn s)).instr) (fetch (hostTurn s)) = .next t)) := by
  cases ha : s.aborted with
  | true => cases (step_of_aborted ha).symm.trans h
  | false =>
    cases hr : s.run with
    | halted => cases (step_of_halted ha hr).symm.trans h
    | fatal r => cases (step_of_fatal ha hr).symm.trans h
    | running =>
      refine ⟨rfl, ?_⟩
      cases ht : (hostTurn s).aborted with
      | true => cases (step_of_abort hr ha ht).symm.trans h; exact .inl rfl
      | false =>
        cases hu : s.unfinished with
        | some m => exact .inr (.inl ⟨m, rfl, (step_of_unfinished hr ha ht hu).symm.trans h⟩)
        | none => exact .inr (.inr ⟨rfl, (step_of_idle hr ha ht hu).symm.trans h⟩)

/-! ### The invariant (spec/10_state.md R42, spec/43_trap.md R188, spec/60_exceptions.md R226) -/

/-- A good state at the entry of an instruction: running, nothing unfinished, pc incremented. -/
structure State.AtEntry (s : State) : Prop where
  params : s.params.wf
  mem : s.MemWf
  run : s.run = .running
  unfinished : s.unfinished = none
  pc : s.pc = s.oldPc + 1

/-- A good state inside a TRAP: running, R7 and pc at old_pc + 1. -/
structure State.InTrap (s : State) : Prop where
  params : s.params.wf
  mem : s.MemWf
  run : s.run = .running
  link : s.reg 7 = s.pc
  pc : s.pc = s.oldPc + 1

/-- A running engine is in a good state as soon as its unfinished step, if it has one, has written R7. -/
theorem inv_of_running {s : State} (hp : s.params.wf) (hm : s.MemWf) (hr : s.run = .running)
    (hu : s.unfinished ≠ none → s.reg 7 = s.pc ∧ s.pc = s.oldPc + 1) : s.Inv where
  params := hp
  mem := hm
  unfinished h := ⟨hr, hu h⟩
  fatal _ h := by cases hr.symm.trans h
  halted h := by cases hr.symm.trans h

theorem inv_of_idle {s : State} (hp : s.params.wf) (hm : s.MemWf) (hr : s.run = .running) (hu : s.unfinished = none) :
    s.Inv :=
  inv_of_running hp hm hr fun h => absurd hu h

theorem inv_raiseFatal {s : State} {r : FatalReason} (hp : s.params.wf) (hm : s.MemWf) (hu : s.unfinished = none)
    (hpc : s.pc = s.oldPc + 1) (hr : fatalOldPc r = s.oldPc) : (raiseFatal s r).Inv where
  params := hp
  mem := hm
  unfinished h := absurd hu h
  fatal q h := by cases h; exact ⟨hr, hpc⟩
  halted h := by cases h

theorem inv_haltEngine {s : State} (h : s.InTrap) (hu : s.unfinished = none) : (haltEngine s).Inv where
  params := h.params
  mem := h.mem
  unfinished k := absurd hu k
  fatal _ k := by cases k
  halted _ := ⟨h.link, h.pc⟩

theorem State.AtEntry.inTrap {s : State} (h : s.AtEntry) : (trapEntry s).InTrap :=
  ⟨h.params, h.mem, h.run, reg_setReg_self s 7 s.pc, h.pc⟩

theorem State.Inv.inTrap {s : State} (h : s.Inv) (hu : s.unfinished ≠ none) : s.InTrap :=
  have ⟨hr, hl, hp⟩ := h.unfinished hu
  ⟨h.params, h.mem, hr, hl, hp⟩

theorem Emits.params_wf {s u : State} {bs : List Byte} (h : Emits s bs u) (hp : s.params.wf) : u.params.wf := by
  rwa [h.params]

theorem Emits.inTrap {s u : State} {bs : List Byte} (h : Emits s bs u) (hs : s.InTrap) : u.InTrap where
  params := h.params_wf hs.params
  mem := h.memWf hs.mem
  run := h.run.trans hs.run
  link := by rw [h.reg, h.pc, hs.link]
  pc := by rw [h.pc, h.oldPc, hs.pc]

theorem State.InTrap.inv_setUnfinished {s : State} (h : s.InTrap) (o : Option UnfinishedStep) :
    (s.setUnfinished o).Inv :=
  inv_of_running h.params h.mem h.run fun _ => ⟨h.link, h.pc⟩

theorem OutputEnd.inv {s t : State} (h : OutputEnd s t) (hs : s.InTrap) : t.Inv := by
  cases h with
  | emitted o h => exact (h.inTrap hs).inv_setUnfinished o

theorem ReadEnd.inv {s t : State} (h : ReadEnd s t) (hs : s.InTrap) : t.Inv := by
  cases h with
  | blocked m h => exact (h.inTrap hs).inv_setUnfinished (some m)
  | failed h =>
    have hu := h.inTrap hs
    exact inv_raiseFatal hu.params hu.mem rfl hu.pc rfl
  | delivered b h =>
    have hu := h.inTrap hs
    exact inv_of_idle hu.params hu.mem hu.run rfl

theorem fetch_atEntry {s : State} (h : s.Inv) (hr : s.run = .running) (hu : s.unfinished = none) :
    (fetch s).AtEntry where
  params := by rw [fetch_params]; exact h.params
  mem := fetch_wf s h.mem
  run := (fetch_run s).trans hr
  unfinished := (fetch_unfinished s).trans hu
  pc := rfl

/-- Every instruction ends in a good state. -/
theorem ExecEnd.inv {i : Instr} {s t : State} (h : ExecEnd s i t) (hs : s.AtEntry) : t.Inv := by
  cases h with
  | writesBack v _ _ _ h =>
    exact inv_of_idle (h.params_wf hs.params) (h.memWf hs.mem) (h.run.trans hs.run) (h.unfinished.trans hs.unfinished)
  | stores a v _ _ h =>
    exact inv_of_idle (h.params_wf hs.params) (memWrite_wf _ a v (h.memWf hs.mem)) (h.run.trans hs.run)
      (h.unfinished.trans hs.unfinished)
  | jumps | links => exact inv_of_idle hs.params hs.mem hs.run hs.unfinished
  | unimplemented op => exact inv_raiseFatal hs.params hs.mem hs.unfinished hs.pc rfl
  | reads _ h => exact h.inv hs.inTrap
  | emits _ h => exact h.inv hs.inTrap
  | halts _ h => exact inv_haltEngine (h.inTrap hs.inTrap) (h.unfinished.trans hs.unfinished)
  | unknownVector v => exact inv_raiseFatal (s := trapEntry s) hs.params hs.mem hs.unfinished hs.pc rfl

/-- Settles O60: the host's turn keeps the invariant, and an instruction, or a turn of an unfinished one, ends in a good
state. -/
theorem stepKeepsTheInvariant : Obligations.StepKeepsTheInvariant := by
  intro s t hs h
  have hh := hostTurn_keeps_inv hs
  obtain ⟨hr, rfl | ⟨m, hu, h⟩ | ⟨hu, h⟩⟩ := step_cases h
  · exact hh
  · have hin : (hostTurn s).InTrap := hh.inTrap (by simp [hu])
    exact (resumeStep_cases h).elim (·.inv hin) (·.inv hin)
  · exact (execEnd_of_next h).inv (fetch_atEntry hh ((hostTurn_run s).trans hr) ((hostTurn_unfinished s).trans hu))

end Sys2Proof.Machine

/-! ### Condition code, registers, pc and console (spec/10_state.md R21, R23, R24, R29, R40) -/

namespace Sys2Proof.Machine

/-- Zero comes first, the sign bit tells the other two apart. -/
theorem condOf_classifies (v : Word) : (condOf v = .zro ↔ v = 0) ∧
    (condOf v = .neg ↔ v ≠ 0 ∧ v.getLsbD 15 = true) ∧ (condOf v = .pos ↔ v ≠ 0 ∧ v.getLsbD 15 = false) := by
  by_cases h : v = 0#16
  · subst h
    decide
  · have hsign : condOf v = if v.getLsbD 15 then .neg else .pos := if_neg h
    rw [hsign]
    cases v.getLsbD 15 <;> simp [h]

/-- Settles O7: `setcc` writes what `condOf` says. -/
theorem setccFollowsTheSign : Obligations.SetccFollowsTheSign := fun _ v => ⟨rfl, condOf_classifies v⟩

/-- A console read that completes has set cond from the byte in R0; one that blocks or fails has not. -/
theorem ReadEnd.cond {s t : State} (h : ReadEnd s t) (hr : s.run = .running) :
    (t.run = .running ∧ t.unfinished = none → t.cond = condOf (t.reg 0)) ∧
    (¬(t.run = .running ∧ t.unfinished = none) → t.cond = s.cond) := by
  cases h with
  | blocked m h => exact ⟨fun k => absurd k.2 (by simp), fun _ => h.cond⟩
  | failed h => exact ⟨fun k => absurd k.1 (by simp), fun _ => h.cond⟩
  | delivered b h =>
    have hdone : (inputToR0 (State.setUnfinished _ none) b).run = .running := h.run.trans hr
    refine ⟨fun _ => ?_, fun k => absurd ⟨hdone, rfl⟩ k⟩
    simp [inputToR0, reg_writeBack]

/-- An instruction that is no source of flags keeps cond. -/
theorem ExecEnd.cond_eq {i : Instr} {s t : State} (h : ExecEnd s i t) (hi : condSource i = none) :
    t.cond = s.cond := by
  cases h with
  | writesBack v hc => cases hc.symm.trans hi
  | stores a v _ _ h => exact h.cond
  | jumps | links | unimplemented | unknownVector => rfl
  | reads row => cases row.cond.symm.trans hi
  | emits _ h => obtain ⟨o, h⟩ := h; exact h.cond
  | halts _ h => exact h.cond

/-- An instruction that sets flags sets them from the register it names, unless its read blocked or failed. -/
theorem ExecEnd.cond_setcc {i : Instr} {s t : State} {d : RegIdx} (h : ExecEnd s i t) (hi : condSource i = some d)
    (hr : s.run = .running) (hu : s.unfinished = none) :
    (t.run = .running ∧ t.unfinished = none → t.cond = condOf (t.reg d)) ∧
    (¬(t.run = .running ∧ t.unfinished = none) → t.cond = s.cond) := by
  cases h with
  | writesBack v hc _ _ h =>
    cases hc.symm.trans hi
    refine ⟨fun _ => ?_, fun k => absurd ⟨h.run.trans hr, h.unfinished.trans hu⟩ k⟩
    simp [reg_writeBack]
  | reads row h =>
    cases row.cond.symm.trans hi
    exact h.cond hr
  | stores _ _ hc | jumps hc | links hc | unimplemented _ hc => cases hc.symm.trans hi
  | emits row | halts row | unknownVector _ row => cases row.cond.symm.trans hi

/-- Settles O8: by the flag source of the instruction, kept without one, set from it otherwise. -/
theorem condWrittenOnlyBySetcc : Obligations.CondWrittenOnlyBySetcc := by
  intro i s t hr hu h
  have hend := execEnd_of_next h
  cases hi : condSource i with
  | none => exact hend.cond_eq hi
  | some d => exact hend.cond_setcc hi hr hu

theorem trapEntry_reg {s : State} {r : RegIdx} (h : r ≠ 7) : (trapEntry s).reg r = s.reg r :=
  reg_setReg_ne s s.pc h

theorem ReadEnd.reg {s t : State} {r : RegIdx} (h : ReadEnd s t) (hr : r ≠ 0) : t.reg r = s.reg r := by
  cases h with
  | blocked m h => exact h.reg r
  | failed h => exact h.reg r
  | delivered b h => exact (reg_setReg_ne _ _ hr).trans (h.reg r)

theorem ExecEnd.reg {i : Instr} {s t : State} {r : RegIdx} (h : ExecEnd s i t) (hr : r ∉ gprWrites i) :
    t.reg r = s.reg r := by
  cases h with
  | @writesBack d _ v _ hg _ h =>
    have hd : r ≠ d := by simpa [hg] using hr
    exact (reg_setReg_ne _ v hd).trans (h.reg r)
  | stores a v _ _ h => exact h.reg r
  | jumps | unimplemented => rfl
  | links _ hg =>
    have h7 : r ≠ 7 := by simpa [hg] using hr
    exact reg_setReg_ne s s.pc h7
  | reads row h =>
    obtain ⟨h7, h0⟩ : r ≠ 7 ∧ r ≠ 0 := by simpa [row.gprs] using hr
    exact (h.reg h0).trans (trapEntry_reg h7)
  | emits row h =>
    have h7 : r ≠ 7 := by simpa [row.gprs] using hr
    obtain ⟨o, h⟩ := h
    exact (h.reg r).trans (trapEntry_reg h7)
  | halts row h =>
    have h7 : r ≠ 7 := by simpa [row.gprs] using hr
    exact (h.reg r).trans (trapEntry_reg h7)
  | unknownVector v row =>
    have h7 : r ≠ 7 := by simpa [row.gprs] using hr
    exact trapEntry_reg h7

/-- Settles O9: no end of an instruction touches a register outside `gprWrites`. -/
theorem registersWrittenOnlyAsListed : Obligations.RegistersWrittenOnlyAsListed := fun _ _ _ _ h hr =>
  (execEnd_of_next h).reg hr

theorem ReadEnd.pc {s t : State} (h : ReadEnd s t) : t.pc = s.pc := by
  cases h with
  | blocked m h => exact h.pc
  | failed h => exact h.pc
  | delivered b h => exact h.pc

theorem ExecEnd.pc {i : Instr} {s t : State} (h : ExecEnd s i t) : t.pc = pcAfter i s := by
  cases h with
  | writesBack v _ _ hp h => exact h.pc.trans hp.symm
  | stores a v _ hp h => exact h.pc.trans hp.symm
  | jumps | links => rfl
  | unimplemented op _ hp => exact hp.symm
  | reads row h => exact h.pc.trans (row.pc s).symm
  | emits row h => obtain ⟨o, h⟩ := h; exact h.pc.trans (row.pc s).symm
  | halts row h => exact h.pc.trans (row.pc s).symm
  | unknownVector v row => exact (row.pc s).symm

/-- Settles O10: every end of an instruction leaves pc at `pcAfter`. -/
theorem pcAfterEachInstruction : Obligations.PcAfterEachInstruction := fun _ _ _ h => (execEnd_of_next h).pc

/-- What only a fetch, the host or a boot may change. -/
def State.background (s : State) : Config × Word × Word × List HostEvent × List HostEvent × Bool :=
  (s.params, s.oldPc, s.instr, s.host, s.hostCycle, s.aborted)

theorem Emits.background {s u : State} {bs : List Byte} (h : Emits s bs u) : u.background = s.background := by
  simp only [State.background, h.params, h.oldPc, h.instr, h.host, h.hostCycle, h.aborted]

theorem ReadEnd.background {s t : State} (h : ReadEnd s t) : t.background = s.background := by
  cases h with
  | blocked m h => exact h.background
  | failed h => exact h.background
  | delivered b h => exact h.background

theorem ReadEnd.output {s t : State} (h : ReadEnd s t) : ∃ bs, t.console.output = s.console.output ++ bs := by
  cases h with
  | blocked m h => exact ⟨_, h.output⟩
  | failed h => exact ⟨_, h.output⟩
  | delivered b h => exact ⟨_, h.output⟩

theorem ExecEnd.background {i : Instr} {s t : State} (h : ExecEnd s i t) : t.background = s.background := by
  cases h with
  | writesBack v _ _ _ h => exact h.background
  | stores a v _ _ h => exact h.background
  | jumps | links | unimplemented | unknownVector => rfl
  | reads _ h => exact h.background
  | emits _ h => obtain ⟨o, h⟩ := h; exact h.background
  | halts _ h => exact h.background

/-- A TRAP only appends to the output; any other instruction leaves the console's output and the unfinished step. -/
theorem ExecEnd.output {i : Instr} {s t : State} (h : ExecEnd s i t) :
    (opcodeOf ((encode i).extractLsb' 12 4) = .trap ∧ ∃ bs, t.console.output = s.console.output ++ bs) ∨
      (t.console.output = s.console.output ∧ t.unfinished = s.unfinished) := by
  cases h with
  | writesBack v _ _ _ h => exact .inr ⟨h.output.trans (List.append_nil _), h.unfinished⟩
  | stores a v _ _ h => exact .inr ⟨h.output.trans (List.append_nil _), h.unfinished⟩
  | jumps | links | unimplemented | unknownVector => exact .inr ⟨rfl, rfl⟩
  | reads row h => exact .inl ⟨row.opcode, h.output⟩
  | emits row h => obtain ⟨o, h⟩ := h; exact .inl ⟨row.opcode, _, h.output⟩
  | halts row h => exact .inl ⟨row.opcode, _, h.output⟩

/-- Settles O13: every end keeps the background and appends to the output, the ends of a TRAP alone emitting. -/
theorem consoleWrittenOnlyByTraps : Obligations.ConsoleWrittenOnlyByTraps := by
  intro i s t h
  have hend := execEnd_of_next h
  have hback := hend.background
  simp only [State.background, Prod.mk.injEq] at hback
  obtain ⟨hparams, holdPc, hinstr, hhost, hcycle, haborted⟩ := hback
  refine ⟨hparams, holdPc, hinstr, hhost, hcycle, haborted, ?_⟩
  obtain ⟨htrap, hout⟩ | hsame := hend.output
  · exact ⟨hout, fun hne => absurd htrap hne⟩
  · exact ⟨⟨[], hsame.1.trans (List.append_nil _).symm⟩, fun _ => hsame⟩

end Sys2Proof.Machine

/-! ### Only BR reads cond (spec/10_state.md R25)

Every operation that other instructions are made of either commutes with setting cond first, or overwrites it. -/

namespace Sys2Proof.Machine

def State.withCond (s : State) (c : Cond) : State := { s with cond := c }

theorem kbsrPoll_withCond (s : State) (c : Cond) : kbsrPoll (s.withCond c) = (kbsrPoll s).withCond c := by
  have hr : pollReady (s.withCond c) = pollReady s := rfl
  unfold kbsrPoll conPoll
  rw [hr]
  cases pollReady s with
  | false => rfl
  | true =>
    simp only [conRead, setConsole_console]
    have hp : (s.withCond c).console = s.console := rfl
    rw [hp]
    rcases s.console.pending with _ | ⟨_ | _, _⟩ <;> rfl

theorem memReadState_withCond (s : State) (c : Cond) (a : Word) :
    memReadState (s.withCond c) a = (memReadState s a).withCond c := by
  unfold memReadState
  rw [kbsrPoll_withCond]
  exact (apply_ite (fun t => State.withCond t c) _ _ _).symm

theorem memRead_withCond (s : State) (c : Cond) (a : Word) :
    memRead (s.withCond c) a = ((memRead s a).1, (memRead s a).2.withCond c) := by
  simp only [memRead, memReadState_withCond]
  rfl

theorem eaIndirect_withCond (s : State) (c : Cond) (off9 : BitVec 9) :
    eaIndirect (s.withCond c) off9 = ((eaIndirect s off9).1, (eaIndirect s off9).2.withCond c) :=
  memRead_withCond s c (eaPcRel s off9)

theorem strRead_withCond (s : State) (c : Cond) (a : Word) :
    strRead (s.withCond c) a = ((strRead s a).1, (strRead s a).2.withCond c) := by
  have hp : (s.withCond c).params = s.params := rfl
  unfold strRead
  rw [memRead_withCond, hp]
  split <;> rfl

theorem stringScan_withCond (emit : Word → List Byte) (c : Cond) (fuel : Nat) : ∀ (s : State) (a : Word),
    stringScan emit fuel (s.withCond c) a =
      ((stringScan emit fuel s a).1.withCond c, (stringScan emit fuel s a).2) := by
  induction fuel with
  | zero => intro s a; rfl
  | succ n ih =>
    intro s a
    simp only [stringScan, strRead_withCond]
    split
    · rfl
    · exact ih (conWrite (strRead s a).2 _) (a + 1)

/-- A load overwrites cond, so it does not matter what it was. -/
theorem loadTo_withCond (s : State) (c : Cond) (dr : RegIdx) (ea : Word) :
    loadTo (s.withCond c) dr ea = loadTo s dr ea := by
  simp only [loadTo, memRead_withCond]
  rfl

theorem scanTurn_withCond (emit : Word → List Byte) (mark : Word → UnfinishedStep) (s : State) (c : Cond) (a : Word) :
    blankCond (scanTurn emit mark a (s.withCond c)) = blankCond (scanTurn emit mark a s) := by
  rw [scanTurn_eq, scanTurn_eq, stringScan_withCond]
  rfl

theorem getcRead_withCond (s : State) (c : Cond) :
    blankCond (getcRead (s.withCond c)) = blankCond (getcRead s) := by
  have hp : (s.withCond c).console = s.console := rfl
  unfold getcRead conRead
  rw [hp]
  rcases s.console.pending with _ | ⟨_ | _, _⟩ <;> rfl

theorem inpRead_withCond (s : State) (c : Cond) :
    blankCond (inpRead (s.withCond c)) = blankCond (inpRead s) := by
  have hp : (s.withCond c).console = s.console := rfl
  unfold inpRead conRead
  rw [hp]
  rcases s.console.pending with _ | ⟨_ | _, _⟩ <;> rfl

/-- The trap dispatcher selects by the vector alone, and no service reads cond. -/
theorem dispatchTrap_withCond (v : BitVec 8) (s : State) (c : Cond) :
    blankCond (dispatchTrap v (s.withCond c)) = blankCond (dispatchTrap v s) := by
  unfold dispatchTrap
  split
  · exact getcRead_withCond s c
  · rfl
  · exact scanTurn_withCond _ _ s c _
  · exact inpRead_withCond (conWrite s s.params.inPrompt) c
  · exact scanTurn_withCond _ _ s c _
  · rfl
  · rfl

theorem exec_withCond {i : Instr} (hi : ∀ nzp off9, i ≠ .br nzp off9) (s : State) (c : Cond) :
    blankCond (exec i (s.withCond c)) = blankCond (exec i s) := by
  cases i with
  | br nzp off9 => exact absurd rfl (hi nzp off9)
  | addReg | addImm | andReg | andImm | not | lea | jmp | ret | jsr | jsrr | st | str | rti | res => rfl
  | ld dr off9 => exact congrArg (blankCond ∘ .next) (loadTo_withCond s c dr _)
  | ldr dr base off6 => exact congrArg (blankCond ∘ .next) (loadTo_withCond s c dr _)
  | ldi dr off9 => simp only [exec, execLdi, eaIndirect_withCond, loadTo_withCond]
  | sti sr off9 =>
    simp only [exec, execSti, eaIndirect_withCond]
    rfl
  | trap v => exact dispatchTrap_withCond v (trapEntry s) c
  | getc => exact dispatchTrap_withCond 0x20 (trapEntry s) c
  | out => exact dispatchTrap_withCond 0x21 (trapEntry s) c
  | puts => exact dispatchTrap_withCond 0x22 (trapEntry s) c
  | inp => exact dispatchTrap_withCond 0x23 (trapEntry s) c
  | putsp => exact dispatchTrap_withCond 0x24 (trapEntry s) c
  | halt => exact dispatchTrap_withCond 0x25 (trapEntry s) c

/-- Settles O11: setting cond first is absorbed by every other instruction. -/
theorem onlyBranchReadsCond : Obligations.OnlyBranchReadsCond := fun _ s c hi => exec_withCond hi s c

/-! ### Blocking reads, and the step's boundary (spec/10_state.md R28, R31, R32, R42) -/

/-- Settles O49: of the ends of the two reads, only blocking goes with an empty console. -/
theorem blockingReadsWaitForInput : Obligations.BlockingReadsWaitForInput := by
  intro s hp
  constructor
  · obtain ⟨-, h⟩ | ⟨rs, hne, -⟩ | ⟨b, rs, hne, -⟩ := execGetc_cases s
    · exact h
    · cases hp.symm.trans hne
    · cases hp.symm.trans hne
  · obtain ⟨-, h⟩ | ⟨rs, hne, -⟩ | ⟨b, rs, hne, -⟩ := execInp_cases s
    · exact h
    · cases hp.symm.trans hne
    · cases hp.symm.trans hne

theorem hostTurn_of_host {s : State} {e : HostEvent} {rest : List HostEvent} (h : s.host = e :: rest) :
    hostTurn s = hostAct e rest s := by
  simp only [hostTurn, h]

theorem hostTurn_of_none_due {s : State} (h : s.host = []) (hc : s.hostCycle = []) : hostTurn s = s := by
  simp only [hostTurn, h, hc]

/-- Settles O51: the host's turn moves neither pc nor the unfinished step, so the fetch is from `s.pc`. -/
theorem stepRunsTheDecodedInstruction : Obligations.StepRunsTheDecodedInstruction := by
  intro s i hr ha ht hu hi
  refine ⟨?_, hostTurn_of_none_due, hostTurn_cycle s, fun _ h => hostTurn_of_host h, fun _ _ h => hostTurn_of_host h⟩
  rw [step_of_idle hr ha ht hu, fetch_instr, hostTurn_pc, hi, fetch, hostTurn_pc]

/-- Settles O52: the three guards of `step`, in its order. -/
theorem stoppedEngineTakesNoStep : Obligations.StoppedEngineTakesNoStep := fun _ =>
  ⟨step_of_aborted, step_of_halted, fun _ => step_of_fatal⟩

/-- Outside a scan an abort is taken (R42). -/
theorem hostAct_abort_taken {s : State} (h : s.scanning = false) (rest : List HostEvent) :
    hostAct .abort rest s = { s with host := rest, aborted := true } := by
  simp [hostAct, h]

/-- During a scan it stays due (spec/60_exceptions.md R225). -/
theorem hostAct_abort_waits {s : State} {rest : List HostEvent} (h : s.scanning = true) (hh : s.host = .abort :: rest) :
    hostAct .abort rest s = s := by
  simp only [hostAct, h, ← hh, if_true]

/-- Settles O53: where no scan is under way the host's turn takes the abort, and with it the step ends. -/
theorem hostAbortEndsTheRun : Obligations.HostAbortEndsTheRun := by
  intro s rest hr ha hh
  have hturn := hostTurn_of_host hh
  constructor
  · intro hu
    have hscan : s.scanning = false := by obtain h | h | h := hu <;> simp [State.scanning, h]
    rw [hostAct_abort_taken hscan] at hturn
    have hstep := step_of_abort hr ha (congrArg State.aborted hturn)
    refine ⟨hstep.trans (congrArg _ hturn), step_of_aborted rfl, ?_⟩
    simp [exitStatus, runOutcome, outcomeStatus, hr]
  · intro a hu
    have hscan : s.scanning = true := by obtain h | h := hu <;> simp [State.scanning, h]
    exact hturn.trans (hostAct_abort_waits hscan hh)

end Sys2Proof.Machine

/-! ### The memory ports and the keyboard poll (spec/20_memory.md R52, R53, R56, R57) -/

namespace Sys2Proof.Machine

theorem rawRead_memWrite {s : State} (hm : s.MemWf) (a v b : Word) :
    rawRead (memWrite s a v) b = if b = a then v else rawRead s b := by
  split
  case isTrue h => rw [h]; exact rawRead_memWrite_self s a v hm
  case isFalse h => exact rawRead_memWrite_ne s v h

/-- Settles O16: a write updates the memory field alone, which reads back as updated. -/
theorem memWriteIsADirectStore : Obligations.MemWriteIsADirectStore := fun s a v b hm =>
  ⟨rfl, memWrite_wf s a v hm, rawRead_memWrite hm a v b⟩

theorem memReadState_kbsrAddr (s : State) : memReadState s s.params.kbsrAddr = kbsrPoll s := if_pos rfl

theorem memRead_kbsrAddr (s : State) :
    memRead s s.params.kbsrAddr = (rawRead (kbsrPoll s) s.params.kbsrAddr, kbsrPoll s) := by
  rw [memRead, memReadState_kbsrAddr]

/-- Settles O17: the read port's two cases. -/
theorem readInterceptsOnlyKbsr : Obligations.ReadInterceptsOnlyKbsr := fun s _ =>
  ⟨memRead_plain s, memRead_kbsrAddr s⟩

/-- Settles O18: with legal parameters KBDR_ADDR is not KBSR_ADDR (R55), so reading it does not poll. -/
theorem kbdrReadIsPlain : Obligations.KbdrReadIsPlain := fun s ⟨hne, _⟩ => memRead_plain s hne.symm

/-- A poll answers true where it does not fail and input, a byte or a failure, is pending (spec/10_state.md R40). -/
theorem pollReady_iff (s : State) :
    pollReady s = true ↔ s.console.polls.head? ≠ some .ioError ∧ s.console.pending ≠ [] := by
  unfold pollReady
  split <;> simp [*]

/-- A poll that answers false consumes its reply and clears KBSR. -/
theorem kbsrPoll_of_not_pollReady {s : State} (h : ¬ pollReady s = true) :
    kbsrPoll s = kbsrClear (s.setConsole { s.console with polls := s.console.polls.tail }) := by
  simp [kbsrPoll, conPoll, h]

/-- After a poll that answers true, the read takes the byte into KBDR. -/
theorem kbsrPoll_of_byte {s : State} {b : Byte} {rest : List ReadReply} (hpoll : s.console.polls.head? ≠ some .ioError)
    (hp : s.console.pending = .byte b :: rest) : kbsrPoll s =
      kbsrReady (s.setConsole { s.console with pending := rest, polls := s.console.polls.tail }) b := by
  have hready : pollReady s = true := (pollReady_iff s).mpr ⟨hpoll, by simp [hp]⟩
  simp [kbsrPoll, conPoll, conRead, hready, hp, State.setConsole]

/-- After a poll that answers true, a failing read counts as a failed poll (D12). -/
theorem kbsrPoll_of_failure {s : State} {rest : List ReadReply} (hpoll : s.console.polls.head? ≠ some .ioError)
    (hp : s.console.pending = .failure :: rest) : kbsrPoll s =
      kbsrClear (s.setConsole { s.console with pending := rest, polls := s.console.polls.tail }) := by
  have hready : pollReady s = true := (pollReady_iff s).mpr ⟨hpoll, by simp [hp]⟩
  simp [kbsrPoll, conPoll, conRead, hready, hp, State.setConsole]

/-- The three causes of a not-ready poll have one outcome; a failing poll leaves the read replies. -/
theorem kbsrPoll_of_not_ready {s : State} (h : s.console.pending = [] ∨ s.console.polls.head? = some .ioError ∨
    s.console.pending.head? = some .failure) : kbsrPoll s = kbsrClear (s.setConsole { s.console with
      pending := if s.console.polls.head? = some .ioError then s.console.pending else s.console.pending.tail,
      polls := s.console.polls.tail }) := by
  by_cases hpoll : s.console.polls.head? = some .ioError
  · rw [kbsrPoll_of_not_pollReady (by simp [pollReady_iff, hpoll]), if_pos hpoll]
  · rw [if_neg hpoll]
    rcases hp : s.console.pending with _ | ⟨_ | _, rest⟩
    · rw [kbsrPoll_of_not_pollReady (by simp [pollReady_iff, hp])]
      simp only [hp, List.tail_nil]
    · simp [hp, hpoll] at h
    · exact kbsrPoll_of_failure hpoll hp

/-- Settles O19: the poll is `kbsrReady`, two writes to different cells. -/
theorem kbsrPollReady : Obligations.KbsrPollReady := by
  intro s b rest ⟨hne, _⟩ hm hp hpoll
  rw [kbsrPoll_of_byte hpoll hp]
  generalize ({ s.console with pending := rest, polls := s.console.polls.tail } : Console) = c
  have hstatus : (memWrite (s.setConsole c) s.params.kbsrAddr 0x8000).MemWf := memWrite_wf (s.setConsole c) _ _ hm
  refine ⟨?_, rawRead_memWrite_self _ _ _ hstatus, fun a hsr hdr => ?_, rfl⟩
  · exact (rawRead_memWrite_ne _ _ hne).trans (rawRead_memWrite_self (s.setConsole c) _ _ hm)
  · exact (rawRead_memWrite_ne _ _ hdr).trans (rawRead_memWrite_ne (s.setConsole c) _ hsr)

/-- Settles O20: the poll is `kbsrClear`, one write. -/
theorem kbsrPollNotReady : Obligations.KbsrPollNotReady := by
  intro s hm h
  rw [kbsrPoll_of_not_ready h]
  exact ⟨rawRead_memWrite_self (s.setConsole _) _ _ hm, fun a ha => rawRead_memWrite_ne (s.setConsole _) _ ha, rfl⟩

/-! ### A store is seen by the next fetch (spec/20_memory.md R68, spec/70_reset_and_hazards.md R261) -/

/-- A fetch from the cell just written latches the value written. -/
theorem fetch_memWrite_instr {s : State} {a : Word} (v : Word) (hm : s.MemWf) (hpc : s.pc = a)
    (ha : a ≠ s.params.kbsrAddr) : (fetch (memWrite s a v)).instr = v := by
  subst hpc
  rw [fetch_instr, memWrite_pc, memRead_plain (memWrite s s.pc v) ha]
  exact rawRead_memWrite_self s s.pc v hm

/-- Settles O37: ST and STR write from `s` itself, STI from the state after its pointer read, which has the same
registers, pc and parameters and a canonical memory. -/
theorem storeIsSeenByNextFetch : Obligations.StoreIsSeenByNextFetch := by
  intro s t i a hm h hst hpc ha
  cases i with
  | st sr off9 => cases h; cases hst; exact fetch_memWrite_instr _ hm hpc ha
  | str sr base off6 => cases h; cases hst; exact fetch_memWrite_instr _ hm hpc ha
  | sti sr off9 =>
    cases h; cases hst
    have hsame := eaIndirect_same s off9
    rw [← hsame.params] at ha
    exact (fetch_memWrite_instr _ (memReadState_wf s _ hm) hpc ha).trans (hsame.reg sr)
  | _ => cases hst

/-! ### The memory frame of the instructions (spec/20_memory.md R53, R56, R59; spec/43_trap.md R189) -/

/-- The cell at `a` is none of the two that a poll writes (R56). -/
def State.OffKeyboard (s : State) (a : Word) : Prop := a ≠ s.params.kbsrAddr ∧ a ≠ s.params.kbdrAddr

theorem SameButMemConsole.offKeyboard {s t : State} {a : Word} (h : SameButMemConsole s t) (ha : s.OffKeyboard a) :
    t.OffKeyboard a := by
  rwa [State.OffKeyboard, h.params]

/-- A read leaves a cell as it was, unless it polls and the cell is one that a poll writes. -/
theorem rawRead_memReadState {s : State} {p a : Word} (h : p = s.params.kbsrAddr → s.OffKeyboard a) :
    rawRead (memReadState s p) a = rawRead s a := by
  by_cases hp : p = s.params.kbsrAddr
  · exact rawRead_memReadState_ne s p (h hp).1 (h hp).2
  · rw [memReadState, if_neg hp]

theorem rawRead_writeBack (s : State) (d : RegIdx) (v a : Word) : rawRead (writeBack s d v) a = rawRead s a := rfl

/-- A load touches memory only by its read. -/
theorem rawRead_loadTo {s : State} {d : RegIdx} {p a : Word} (h : p = s.params.kbsrAddr → s.OffKeyboard a) :
    rawRead (loadTo s d p) a = rawRead s a := by
  rw [loadTo, rawRead_writeBack]
  exact rawRead_memReadState h

/-- The pointer read of LDI and STI. -/
theorem rawRead_eaIndirect {s : State} {off9 : BitVec 9} {a : Word}
    (h : eaPcRel s off9 = s.params.kbsrAddr → s.OffKeyboard a) : rawRead (eaIndirect s off9).2 a = rawRead s a :=
  rawRead_memReadState h

theorem rawRead_strRead {s : State} {p a : Word} (h : s.params.stringReadIntercepts = true → s.OffKeyboard a) :
    rawRead (strRead s p).2 a = rawRead s a := by
  unfold strRead
  split
  case isTrue hi => exact rawRead_memReadState fun _ => h hi
  case isFalse => rfl

theorem rawRead_stringScan (emit : Word → List Byte) {a : Word} (fuel : Nat) : ∀ (s : State) (p : Word),
    (s.params.stringReadIntercepts = true → s.OffKeyboard a) →
      rawRead (stringScan emit fuel s p).1 a = rawRead s a := by
  induction fuel with
  | zero => intro s p _; rfl
  | succ n ih =>
    intro s p h
    have hread := rawRead_strRead (p := p) h
    have hsame := strRead_same s p
    unfold stringScan
    split
    case isTrue => exact hread
    case isFalse =>
      refine (ih (conWrite (strRead s p).2 _) _ fun hi => ?_).trans hread
      rw [conWrite_params, hsame.params] at hi
      exact hsame.offKeyboard (h hi)

theorem rawRead_scanTurn {emit : Word → List Byte} {mark : Word → UnfinishedStep} {p a : Word} {s t : State}
    (h : scanTurn emit mark p s = .next t) (ha : s.params.stringReadIntercepts = true → s.OffKeyboard a) :
    rawRead t a = rawRead s a := by
  cases (scanTurn_eq emit mark p s).symm.trans h
  exact rawRead_stringScan emit 65536 s p ha

theorem rawRead_exec_puts {s t : State} {a : Word} (h : exec .puts s = .next t)
    (ha : s.params.stringReadIntercepts = true → s.OffKeyboard a) : rawRead t a = rawRead s a :=
  rawRead_scanTurn (emit := emitPuts) (mark := .puts) (p := (trapEntry s).reg 0) (s := trapEntry s) h ha

theorem rawRead_exec_putsp {s t : State} {a : Word} (h : exec .putsp s = .next t)
    (ha : s.params.stringReadIntercepts = true → s.OffKeyboard a) : rawRead t a = rawRead s a :=
  rawRead_scanTurn (emit := emitPutsp) (mark := .putsp) (p := (trapEntry s).reg 0) (s := trapEntry s) h ha

theorem rawRead_getcRead {s t : State} (h : getcRead s = .next t) (a : Word) : rawRead t a = rawRead s a := by
  obtain ⟨-, e⟩ | ⟨_, -, e⟩ | ⟨_, _, -, e⟩ := getcRead_cases s <;> cases e.symm.trans h <;> rfl

theorem rawRead_inpRead {s t : State} (h : inpRead s = .next t) (a : Word) : rawRead t a = rawRead s a := by
  obtain ⟨-, e⟩ | ⟨_, -, e⟩ | ⟨_, _, -, e⟩ := inpRead_cases s <;> cases e.symm.trans h <;> rfl

theorem mayPoll_of_mem_dataReads {i : Instr} {s : State} (h : s.params.kbsrAddr ∈ dataReads i s) :
    mayPoll i s = true := by
  simp [mayPoll, h]

theorem mayPoll_of_scansStrings {i : Instr} {s : State} (h : scansStrings i = true)
    (hi : s.params.stringReadIntercepts = true) : mayPoll i s = true := by
  simp [mayPoll, h, hi]

/-- An instruction leaves a cell as it was that it does not store to, if the cell is off the keyboard wherever the
instruction may poll. -/
theorem rawRead_exec {i : Instr} {s t : State} {a : Word} (h : exec i s = .next t) (hst : storeAddr i s ≠ some a)
    (ha : mayPoll i s = true → s.OffKeyboard a) : rawRead t a = rawRead s a := by
  have hdata {p : Word} (hp : p ∈ dataReads i s) : p = s.params.kbsrAddr → s.OffKeyboard a := fun e =>
    ha (mayPoll_of_mem_dataReads (e ▸ hp))
  have hscan (hi : scansStrings i = true) : s.params.stringReadIntercepts = true → s.OffKeyboard a := fun hs =>
    ha (mayPoll_of_scansStrings hi hs)
  cases i with
  | addReg | addImm | andReg | andImm | not | lea | jmp | ret | jsr | jsrr | out | halt | rti | res => cases h; rfl
  | br nzp off9 => cases (exec_br nzp off9 s).symm.trans h; rfl
  | ld | ldr =>
    cases h
    exact rawRead_loadTo (hdata List.mem_cons_self)
  | ldi dr off9 =>
    obtain rfl := Host.Outcome.next.inj h
    have hsame := eaIndirect_same s off9
    have hpointee : (eaIndirect s off9).1 ∈ dataReads (.ldi dr off9) s := List.mem_cons_of_mem _ List.mem_cons_self
    rw [rawRead_loadTo fun e => hsame.offKeyboard (hdata hpointee (e.trans (congrArg _ hsame.params)))]
    exact rawRead_eaIndirect (hdata List.mem_cons_self)
  | st | str =>
    cases h
    exact rawRead_memWrite_ne s _ fun e => hst (congrArg some e.symm)
  | sti =>
    obtain rfl := Host.Outcome.next.inj h
    rw [rawRead_memWrite_ne _ _ fun e => hst (congrArg some e.symm)]
    exact rawRead_eaIndirect (hdata List.mem_cons_self)
  | getc => exact rawRead_getcRead h a
  | inp => exact rawRead_inpRead h a
  | puts => exact rawRead_exec_puts h (hscan rfl)
  | putsp => exact rawRead_exec_putsp h (hscan rfl)
  | trap v =>
    obtain ⟨rfl, e⟩ | ⟨rfl, e⟩ | ⟨rfl, e⟩ | ⟨rfl, e⟩ | ⟨rfl, e⟩ | ⟨rfl, e⟩ | ⟨-, e⟩ := exec_trap_cases v s <;>
      rw [e] at h
    · exact rawRead_getcRead h a
    · cases h; rfl
    · exact rawRead_exec_puts h (hscan rfl)
    · exact rawRead_inpRead h a
    · exact rawRead_exec_putsp h (hscan rfl)
    · cases h; rfl
    · cases h; rfl

/-- Settles O12: the frame over the cases of the instruction. -/
theorem memoryChangedOnlyByStoresAndPolls : Obligations.MemoryChangedOnlyByStoresAndPolls := fun _ _ _ _ =>
  rawRead_exec

end Sys2Proof.Machine

/-! ### Words and instruction terms (spec/30_encoding.md R80, R85, R88, R92)

The decoder sees a word only through the fields it reads. `decode_eq_iff` characterises it by them: `w` decodes to `i`
exactly when `i` is canonical and `w` reads as `encode i` does. The encoding claims are its corollaries. -/

namespace Sys2Proof

/-! #### Fields and masks -/

/-- The bits of the fields `fs`, each given by its lowest bit and its width, as ones. -/
def fieldsMask : List (Nat × Nat) → Word
  | [] => 0
  | (lo, n) :: fs => place lo (BitVec.allOnes n) ||| fieldsMask fs

/-- The fields `fs` hold the same values in `v` as in `w`. -/
def ReadsAlike (fs : List (Nat × Nat)) (v w : Word) : Prop :=
  ∀ f ∈ fs, v.extractLsb' f.1 f.2 = w.extractLsb' f.1 f.2

@[simp] theorem readsAlike_nil (v w : Word) : ReadsAlike [] v w := by simp [ReadsAlike]

@[simp] theorem readsAlike_cons (lo n : Nat) (fs : List (Nat × Nat)) (v w : Word) : ReadsAlike ((lo, n) :: fs) v w ↔
    v.extractLsb' lo n = w.extractLsb' lo n ∧ ReadsAlike fs v w :=
  List.forall_mem_cons

/-- Masking a placed field masks its value. -/
theorem place_and {n : Nat} (lo : Nat) (v : BitVec n) (m : Word) :
    place lo v &&& m = place lo (v &&& m.extractLsb' lo n) := by
  refine BitVec.eq_of_getLsbD_eq fun k hk => ?_
  simp only [place, BitVec.getLsbD_and, BitVec.getLsbD_shiftLeft, BitVec.getLsbD_setWidth, BitVec.getLsbD_extractLsb']
  by_cases hlo : k < lo
  · simp [hlo]
  · by_cases hn : k - lo < n
    · simp [hn, Nat.add_sub_cancel' (Nat.le_of_not_lt hlo), Bool.and_assoc]
    · simp [hn, BitVec.getLsbD_of_ge v (k - lo) (Nat.le_of_not_lt hn)]

theorem place_extract (lo n : Nat) (w : Word) :
    place lo (w.extractLsb' lo n) = w &&& place lo (BitVec.allOnes n) := by
  rw [BitVec.and_comm, place_and, BitVec.allOnes_and]

/-- A field inside the word is what its mask lets through. -/
theorem extract_eq_iff {lo n : Nat} (h : lo + n ≤ 16) (v w : Word) : v.extractLsb' lo n = w.extractLsb' lo n ↔
    v &&& place lo (BitVec.allOnes n) = w &&& place lo (BitVec.allOnes n) := by
  rw [← place_extract, ← place_extract]
  refine ⟨congrArg _, fun e => ?_⟩
  rw [← extract_place_self lo (v.extractLsb' lo n) h, e, extract_place_self lo _ h]

/-- Two words agree under a union of masks when they agree under each. -/
theorem and_or_eq_iff (v w m k : Word) :
    v &&& (m ||| k) = w &&& (m ||| k) ↔ v &&& m = w &&& m ∧ v &&& k = w &&& k := by
  constructor
  · intro e
    have under {n : Word} (hn : (m ||| k) &&& n = n) : v &&& n = w &&& n := by
      rw [← hn, ← BitVec.and_assoc, e, BitVec.and_assoc]
    exact ⟨under (by ext; simpa using .inl), under (by ext; simpa using .inr)⟩
  · rintro ⟨em, ek⟩
    rw [BitVec.and_or_distrib_left, em, ek, ← BitVec.and_or_distrib_left]

theorem readsAlike_iff {fs : List (Nat × Nat)} (h : ∀ f ∈ fs, f.1 + f.2 ≤ 16) (v w : Word) :
    ReadsAlike fs v w ↔ v &&& fieldsMask fs = w &&& fieldsMask fs := by
  induction fs with
  | nil => simp [fieldsMask]
  | cons f fs ih =>
    obtain ⟨hf, hfs⟩ := List.forall_mem_cons.mp h
    rw [readsAlike_cons, fieldsMask, and_or_eq_iff, ← ih hfs, ← extract_eq_iff hf]

/-! #### The fields of each row -/

/-- The fields the decoder reads in an instruction's words (R82, R83, R84): the opcode, the mode bit if the opcode has
one, the operands. -/
def readFields : Instr → List (Nat × Nat)
  | .addReg _ _ _ | .andReg _ _ _ => [(12, 4), (5, 1), (9, 3), (6, 3), (0, 3)]
  | .addImm _ _ _ | .andImm _ _ _ => [(12, 4), (5, 1), (9, 3), (6, 3), (0, 5)]
  | .not _ _ => [(12, 4), (9, 3), (6, 3)]
  | .jmp _ | .ret => [(12, 4), (6, 3)]
  | .jsr _ => [(12, 4), (11, 1), (0, 11)]
  | .jsrr _ => [(12, 4), (11, 1), (6, 3)]
  | .br _ _ | .ld _ _ | .ldi _ _ | .lea _ _ | .st _ _ | .sti _ _ => [(12, 4), (9, 3), (0, 9)]
  | .ldr _ _ _ | .str _ _ _ => [(12, 4), (9, 3), (6, 3), (0, 6)]
  | .trap _ | .getc | .out | .puts | .inp | .putsp | .halt => [(12, 4), (0, 8)]
  | .rti | .res => [(12, 4)]

/-- The ignored bits of R88 are those in no field that is read. -/
theorem fieldsMask_readFields (i : Instr) : fieldsMask (readFields i) = ~~~(ignoredBits i) := by
  cases i <;> simp only [readFields, ignoredBits] <;> decide

theorem readFields_le (i : Instr) : ∀ f ∈ readFields i, f.1 + f.2 ≤ 16 := by
  cases i <;> simp [readFields]

/-- To read alike is to agree outside the ignored bits. -/
theorem readsAlike_readFields_iff (i : Instr) (v w : Word) :
    ReadsAlike (readFields i) v w ↔ v &&& ~~~(ignoredBits i) = w &&& ~~~(ignoredBits i) := by
  rw [readsAlike_iff (readFields_le i), fieldsMask_readFields]

/-! #### The opcode and the alias rows -/

theorem opcodeOf_eq_iff (n : BitVec 4) (o : Opcode) : opcodeOf n = o ↔ n = o.code := by
  refine ⟨?_, fun e => e ▸ opcodeOf_code o⟩
  rintro rfl
  revert n
  decide

theorem serviceOf_eq_some {v : BitVec 8} {t : TrapService} (h : serviceOf v = some t) : v = t.vector := by
  unfold serviceOf at h
  split at h <;> cases h <;> rfl

/-- Every vector is a service's or makes a canonical TRAP. -/
theorem decodeTrap_cases (v : BitVec 8) :
    (∃ t : TrapService, v = t.vector) ∨ (decodeTrap v = .trap v ∧ (Instr.trap v).wellFormed = true) := by
  cases h : serviceOf v with
  | some t => exact .inl ⟨t, serviceOf_eq_some h⟩
  | none =>
    have hv := (Machine.serviceOf_eq_none v).mp h
    refine .inr ⟨by simp [decodeTrap, h], ?_⟩
    simp [Instr.wellFormed]
    omega

@[simp] theorem wellFormed_decodeTrap (v : BitVec 8) : (decodeTrap v).wellFormed = true := by
  obtain ⟨t, rfl⟩ | ⟨e, hwf⟩ := decodeTrap_cases v
  · cases t <;> rfl
  · rw [e, hwf]

@[simp] theorem encode_decodeTrap (v : BitVec 8) : encode (decodeTrap v) = trapWord v := by
  obtain ⟨t, rfl⟩ | ⟨e, -⟩ := decodeTrap_cases v
  · cases t <;> rfl
  · rw [e, encode]

@[simp] theorem readFields_decodeTrap (v : BitVec 8) : readFields (decodeTrap v) = [(12, 4), (0, 8)] := by
  obtain ⟨t, rfl⟩ | ⟨e, -⟩ := decodeTrap_cases v
  · cases t <;> rfl
  · rw [e, readFields]

theorem decodeTrap_of_wellFormed {v : BitVec 8} (h : (Instr.trap v).wellFormed = true) : decodeTrap v = .trap v := by
  obtain ⟨t, rfl⟩ | ⟨e, -⟩ := decodeTrap_cases v
  · cases t <;> cases h
  · exact e

@[simp] theorem wellFormed_decodeJmp (base : RegIdx) : (decodeJmp base).wellFormed = true := by
  unfold decodeJmp
  split
  case isTrue => rfl
  case isFalse h => exact bne_iff_ne.mpr h

@[simp] theorem encode_decodeJmp (base : RegIdx) : encode (decodeJmp base) = placeOp .jmp ||| placeReg 6 base := by
  unfold decodeJmp
  split
  case isTrue h => rw [h, encode]
  case isFalse => rfl

@[simp] theorem readFields_decodeJmp (base : RegIdx) : readFields (decodeJmp base) = [(12, 4), (6, 3)] := by
  unfold decodeJmp
  split <;> rfl

theorem decodeJmp_of_wellFormed {base : RegIdx} (h : (Instr.jmp base).wellFormed = true) :
    decodeJmp base = .jmp base :=
  if_neg (bne_iff_ne.mp h)

/-! #### The decoder characterised -/

@[simp] theorem regBits_regField (lo : Nat) (w : Word) : regBits (regField lo w) = w.extractLsb' lo 3 := rfl

/-- A word that reads as the encoding of a canonical instruction decodes to it. -/
theorem decode_of_readsAlike {i : Instr} {w : Word} (hwf : i.wellFormed = true)
    (h : ReadsAlike (readFields i) w (encode i)) : decode w = i := by
  cases i
  all_goals
    simp [readFields, encode, trapWord, placeOp, placeReg, extract_place_self, extract_place_other] at h
  case jmp => simp [decode, regField, h, decodeJmp_of_wellFormed hwf]
  case trap => simp [decode, h, decodeTrap_of_wellFormed hwf]
  case ret => simp [decode, regField, h, decodeJmp]
  case getc | out | puts | inp | putsp | halt => simp [decode, h, decodeTrap]
  all_goals simp [decode, regField, h]

/-- The instruction a word decodes to is canonical, and the word reads as its encoding. -/
theorem decode_spec (w : Word) :
    (decode w).wellFormed = true ∧ ReadsAlike (readFields (decode w)) w (encode (decode w)) := by
  cases h : opcodeOf (w.extractLsb' 12 4)
  all_goals replace h := (opcodeOf_eq_iff _ _).mp h
  case jmp | trap => simp [decode, h, trapWord, placeOp, placeReg, extract_place_self, extract_place_other]
  case' add | and => rcases BitVec.eq_zero_or_eq_one (w.extractLsb' 5 1) with hmode | hmode
  case' jsr => rcases BitVec.eq_zero_or_eq_one (w.extractLsb' 11 1) with hmode | hmode
  all_goals
    simp [*, decode, Instr.wellFormed, readFields, encode, placeOp, placeReg, extract_place_self, extract_place_other]

/-- A word decodes to `i` exactly when `i` is canonical and the word is its encoding but for the ignored bits. -/
theorem decode_eq_iff (w : Word) (i : Instr) : decode w = i ↔
    i.wellFormed = true ∧ w &&& ~~~(ignoredBits i) = encode i &&& ~~~(ignoredBits i) := by
  rw [← readsAlike_readFields_iff]
  constructor
  · rintro rfl
    exact decode_spec w
  · rintro ⟨hwf, h⟩
    exact decode_of_readsAlike hwf h

/-- Settles O1: an encoding agrees with itself. -/
theorem decodeOfEncodeIsIdentity : Obligations.DecodeOfEncodeIsIdentity := fun i hwf =>
  (decode_eq_iff (encode i) i).mpr ⟨hwf, rfl⟩

/-- Settles O2: the agreement in `decode_eq_iff`. -/
theorem encodeOfDecodeKeepsReadBits : Obligations.EncodeOfDecodeKeepsReadBits := fun w =>
  ((decode_eq_iff w _).mp rfl).2.symm

/-- A change confined to the bits `m` is unseen outside them. -/
theorem xor_and_and_not (w x m : Word) : (w ^^^ (x &&& m)) &&& ~~~m = w &&& ~~~m := by
  ext k
  cases hm : m[k] <;> simp [hm]

theorem decode_xor_ignoredBits (w x : Word) : decode (w ^^^ (x &&& ignoredBits (decode w))) = decode w := by
  rw [decode_eq_iff, xor_and_and_not]
  exact (decode_eq_iff w _).mp rfl

/-- Settles O3: equal instructions execute alike. -/
theorem decodeIgnoresUnusedBits : Obligations.DecodeIgnoresUnusedBits := fun w x =>
  ⟨decode_xor_ignoredBits w x, fun s => by rw [decode_xor_ignoredBits]⟩

/-- The encoder writes the fixed bits of the row. -/
theorem encode_and_rowMask (i : Instr) : encode i &&& rowMask i = rowMatch i := by
  cases i
  all_goals
    simp [encode, trapWord, rowMask, rowMatch, placeOp, placeReg, BitVec.and_or_distrib_right, place_and]
  all_goals decide

/-- The fixed bits of a row are not ignored. -/
theorem not_ignoredBits_and_rowMask (i : Instr) : ~~~(ignoredBits i) &&& rowMask i = rowMask i := by
  cases i <;> simp only [ignoredBits, rowMask] <;> decide

/-- Settles O4: outside the ignored bits the word is the encoding, which has the row's fixed bits. -/
theorem everyWordLiesInItsRow : Obligations.EveryWordLiesInItsRow := by
  intro w
  obtain ⟨hwf, hagree⟩ := (decode_eq_iff w _).mp rfl
  refine ⟨?_, hwf⟩
  calc w &&& rowMask (decode w)
      = w &&& ~~~(ignoredBits (decode w)) &&& rowMask (decode w) := by
        rw [BitVec.and_assoc, not_ignoredBits_and_rowMask]
    _ = encode (decode w) &&& rowMask (decode w) := by
        rw [hagree, BitVec.and_assoc, not_ignoredBits_and_rowMask]
    _ = rowMatch (decode w) := encode_and_rowMask _

/-- Settles O5: the decoder computes. -/
theorem workedWordsDecode : Obligations.WorkedWordsDecode := by
  unfold Obligations.WorkedWordsDecode
  decide

end Sys2Proof

/-! ### The alias rows execute as their instruction (spec/30_encoding.md R92) -/

namespace Sys2Proof.Machine

theorem exec_decodeTrap (v : BitVec 8) (s : State) : exec (decodeTrap v) s = exec (.trap v) s := by
  obtain ⟨t, rfl⟩ | ⟨e, -⟩ := decodeTrap_cases v
  · cases t <;> rfl
  · rw [e]

theorem exec_decodeJmp (base : RegIdx) (s : State) : exec (decodeJmp base) s = exec (.jmp base) s := by
  unfold decodeJmp
  split
  case isTrue h => rw [h]; rfl
  case isFalse => rfl

/-- Settles O39: the alias rows are what the decoder makes of the vectors, and of R7. -/
theorem aliasesActAsTheirInstruction : Obligations.AliasesActAsTheirInstruction := fun s =>
  have trap v := (exec_decodeTrap v s).symm
  ⟨trap 0x20, trap 0x21, trap 0x22, trap 0x23, trap 0x24, trap 0x25, (exec_decodeJmp 7 s).symm⟩

end Sys2Proof.Machine

/-! ### ADD, AND, NOT (spec/40_alu.md R112, R113, R114, R115, R116, R118)

The register forms and NOT have ignored bits: their words read as the encoding does in every field the decoder reads.
The immediate forms have none: their words are encodings. -/

namespace Sys2Proof

/-- Bits 4:3 lie in no field that a register form's decoder reads. -/
theorem readsAlike_registerForm (op : BitVec 4) (dr sr1 sr2 : RegIdx) (x : BitVec 2) :
    ReadsAlike [(12, 4), (5, 1), (9, 3), (6, 3), (0, 3)]
      (place 12 op ||| placeReg 9 dr ||| placeReg 6 sr1 ||| place 5 0#1 ||| place 3 x ||| placeReg 0 sr2)
      (place 12 op ||| placeReg 9 dr ||| placeReg 6 sr1 ||| placeReg 0 sr2) := by
  simp [placeReg, extract_place_self, extract_place_other]

/-- NOT's decoder reads none of the bits 5:0. -/
theorem readsAlike_notForm (dr sr1 : RegIdx) (x y : BitVec 6) :
    ReadsAlike [(12, 4), (9, 3), (6, 3)]
      (place 12 0x9#4 ||| placeReg 9 dr ||| placeReg 6 sr1 ||| place 0 x)
      (place 12 0x9#4 ||| placeReg 9 dr ||| placeReg 6 sr1 ||| place 0 y) := by
  simp [placeReg, extract_place_self, extract_place_other]

end Sys2Proof

namespace Sys2Proof.Machine

/-- The flag-setting write-back changes DR and cond only. -/
theorem writeBack_eq (s : State) (d : RegIdx) (v : Word) :
    writeBack s d v = { s with regs := s.regs.set d v, cond := (setcc s v).cond } := rfl

/-- Settles O21: a register form reads as its encoding, and the sum is written back. -/
theorem addRegisterForm : Obligations.AddRegisterForm := fun s dr sr1 sr2 x =>
  ⟨decode_of_readsAlike rfl (readsAlike_registerForm 0x1 dr sr1 sr2 x),
    congrArg Host.Outcome.next (writeBack_eq s dr (s.reg sr1 + s.reg sr2))⟩

/-- Settles O22: the word is the encoding, and the sum is written back. -/
theorem addImmediateForm : Obligations.AddImmediateForm := fun s dr sr1 imm5 =>
  ⟨decodeOfEncodeIsIdentity (.addImm dr sr1 imm5) rfl,
    congrArg Host.Outcome.next (writeBack_eq s dr (s.reg sr1 + sext imm5))⟩

/-- Settles O23: a register form reads as its encoding, and the bitwise AND is written back. -/
theorem andRegisterForm : Obligations.AndRegisterForm := fun s dr sr1 sr2 x =>
  ⟨decode_of_readsAlike rfl (readsAlike_registerForm 0x5 dr sr1 sr2 x),
    congrArg Host.Outcome.next (writeBack_eq s dr (s.reg sr1 &&& s.reg sr2))⟩

/-- Settles O24: the word is the encoding, and the bitwise AND is written back. -/
theorem andImmediateForm : Obligations.AndImmediateForm := fun s dr sr1 imm5 =>
  ⟨decodeOfEncodeIsIdentity (.andImm dr sr1 imm5) rfl,
    congrArg Host.Outcome.next (writeBack_eq s dr (s.reg sr1 &&& sext imm5))⟩

/-- Settles O25: the word reads as its encoding, whose bits 5:0 are ones, and the complement is written back. -/
theorem notComplements : Obligations.NotComplements := fun s dr sr1 x =>
  ⟨decode_of_readsAlike rfl (readsAlike_notForm dr sr1 x 0x3F),
    congrArg Host.Outcome.next (writeBack_eq s dr (~~~(s.reg sr1)))⟩

end Sys2Proof.Machine

/-! ### BR, JMP, RET, JSR, JSRR (spec/41_control.md R131, R132, R134, R136, R138)

BR and JSR have no ignored bits: their words are encodings. -/

namespace Sys2Proof

/-- The opcode and BaseR are all that JMP's decoder reads. -/
theorem readsAlike_jmpForm (base : RegIdx) (x : BitVec 3) (y : BitVec 6) :
    ReadsAlike [(12, 4), (6, 3)]
      (place 12 0xC#4 ||| place 9 x ||| placeReg 6 base ||| place 0 y) (place 12 0xC#4 ||| placeReg 6 base) := by
  simp [placeReg, extract_place_self, extract_place_other]

/-- The opcode, bit 11 and BaseR are all that JSRR's decoder reads. -/
theorem readsAlike_jsrrForm (base : RegIdx) (x : BitVec 2) (y : BitVec 6) :
    ReadsAlike [(12, 4), (11, 1), (6, 3)]
      (place 12 0x4#4 ||| place 11 0#1 ||| place 9 x ||| placeReg 6 base ||| place 0 y)
      (place 12 0x4#4 ||| placeReg 6 base) := by
  simp [placeReg, extract_place_self, extract_place_other]

/-- A JMP word is read as JMP or, through R7, as RET. -/
theorem decode_jmpForm (base : RegIdx) (x : BitVec 3) (y : BitVec 6) :
    decode (place 12 0xC#4 ||| place 9 x ||| placeReg 6 base ||| place 0 y) = decodeJmp base := by
  refine decode_of_readsAlike (wellFormed_decodeJmp base) ?_
  rw [readFields_decodeJmp, encode_decodeJmp]
  exact readsAlike_jmpForm base x y

end Sys2Proof

namespace Sys2Proof.Machine

/-- The truth table of R132 as the mask test of R131. -/
theorem maskBitOf_iff (nzp : BitVec 3) (c : Cond) : maskBitOf nzp c = true ↔ nzp &&& c.bits ≠ 0 := by
  rw [← branchTaken_eq, branchTaken, bne_iff_ne]

/-- The empty mask has no bit for any flag. -/
theorem maskBitOf_none (c : Cond) : maskBitOf 0b000 c = false := by
  cases c <;> rfl

/-- The full mask has the bit of every flag. -/
theorem maskBitOf_all (c : Cond) : maskBitOf 0b111 c = true := by
  cases c <;> rfl

/-- Settles O26: the word is the encoding, and BR follows the truth table. -/
theorem branchFollowsItsMask : Obligations.BranchFollowsItsMask := fun s nzp off9 =>
  ⟨decodeOfEncodeIsIdentity (.br nzp off9) rfl, exec_br nzp off9 s, maskBitOf_iff nzp s.cond, maskBitOf_none s.cond,
    maskBitOf_all s.cond⟩

/-- Settles O27: `decodeJmp` chooses between JMP and RET, and each sets pc only. -/
theorem jumpAndReturn : Obligations.JumpAndReturn := fun _ base x y =>
  ⟨decode_jmpForm base x y, rfl, rfl⟩

/-- Settles O28: the word is the encoding, and JSR sets R7 and pc only. -/
theorem jsrLinksAndJumps : Obligations.JsrLinksAndJumps := fun _ off11 =>
  ⟨decodeOfEncodeIsIdentity (.jsr off11) rfl, rfl⟩

/-- Settles O29: the word reads as its encoding, and the base is read after the link. -/
theorem jsrrReadsBaseAfterLink : Obligations.JsrrReadsBaseAfterLink := fun s base x y =>
  ⟨decode_of_readsAlike rfl (readsAlike_jsrrForm base x y), exec_jsrr base s⟩

end Sys2Proof.Machine

/-! ### LD, LDI, LDR, LEA, ST, STI, STR (spec/42_load_store.md R149 to R156)

None has an ignored bit: their words are encodings. -/

namespace Sys2Proof.Machine

/-- The indirect load with DR in the registers from before the pointer read, which leaves them as they were (R151). -/
theorem loadTo_eaIndirect_eq (s : State) (dr : RegIdx) (off9 : BitVec 9) :
    loadTo (eaIndirect s off9).2 dr (eaIndirect s off9).1 =
      { (memRead (eaIndirect s off9).2 (eaIndirect s off9).1).2 with
        regs := s.regs.set dr (memRead (eaIndirect s off9).2 (eaIndirect s off9).1).1
        cond := condOf (memRead (eaIndirect s off9).2 (eaIndirect s off9).1).1 } := by
  rw [loadTo_eq, (eaIndirect_same s off9).regs]

/-- Settles O30: the word is the encoding, and LD is the load at the PC-relative address. -/
theorem ldLoadsPcRelative : Obligations.LdLoadsPcRelative := fun s dr off9 =>
  ⟨decodeOfEncodeIsIdentity (.ld dr off9) rfl, congrArg Host.Outcome.next (loadTo_eq s dr (eaPcRel s off9))⟩

/-- Settles O31: the word is the encoding, and LDI is the load through the pointer. -/
theorem ldiLoadsThroughPointer : Obligations.LdiLoadsThroughPointer := fun s dr off9 =>
  ⟨decodeOfEncodeIsIdentity (.ldi dr off9) rfl, congrArg Host.Outcome.next (loadTo_eaIndirect_eq s dr off9)⟩

/-- Settles O32: the word is the encoding, and LDR is the load at the address from the old base. -/
theorem ldrLoadsBaseOffset : Obligations.LdrLoadsBaseOffset := fun s dr base off6 =>
  ⟨decodeOfEncodeIsIdentity (.ldr dr base off6) rfl, congrArg Host.Outcome.next (loadTo_eq s dr (eaBase s base off6))⟩

/-- Settles O33: the word is the encoding, and the address itself is written back. -/
theorem leaLoadsTheAddress : Obligations.LeaLoadsTheAddress := fun s dr off9 =>
  ⟨decodeOfEncodeIsIdentity (.lea dr off9) rfl, congrArg Host.Outcome.next (writeBack_eq s dr (eaPcRel s off9))⟩

/-- Settles O34: the word is the encoding, and ST is one direct write. -/
theorem stStoresPcRelative : Obligations.StStoresPcRelative := fun s sr off9 =>
  ⟨decodeOfEncodeIsIdentity (.st sr off9) rfl, memWrite s (eaPcRel s off9) (s.reg sr), rfl, rfl,
    rawRead_memWrite_self s _ _, fun _ => rawRead_memWrite_ne s _, rfl⟩

/-- Settles O35: the word is the encoding, and STI is one direct write after the pointer read, which keeps the
registers and the canonical form of memory. -/
theorem stiStoresThroughPointer : Obligations.StiStoresThroughPointer := by
  intro s sr off9
  refine ⟨decodeOfEncodeIsIdentity (.sti sr off9) rfl,
    memWrite (eaIndirect s off9).2 (eaIndirect s off9).1 ((eaIndirect s off9).2.reg sr), rfl, rfl, rfl, fun hm => ?_,
    fun _ => rawRead_memWrite_ne _ _⟩
  exact (rawRead_memWrite_self _ _ _ (memReadState_wf s _ hm)).trans ((eaIndirect_same s off9).reg sr)

/-- Settles O36: the word is the encoding, and STR is one direct write. -/
theorem strStoresBaseOffset : Obligations.StrStoresBaseOffset := fun s sr base off6 =>
  ⟨decodeOfEncodeIsIdentity (.str sr base off6) rfl, memWrite s (eaBase s base off6) (s.reg sr), rfl, rfl,
    rawRead_memWrite_self s _ _, fun _ => rawRead_memWrite_ne s _, rfl⟩

end Sys2Proof.Machine

/-! ### TRAP and its services (spec/43_trap.md R180 to R188)

The words of a vector differ only in bits 11:8, which are ignored (R88). -/

namespace Sys2Proof

/-- The opcode and the vector are all that TRAP's decoder reads. -/
theorem readsAlike_trapForm (v : BitVec 8) (x : BitVec 4) :
    ReadsAlike [(12, 4), (0, 8)] (place 12 0xF#4 ||| place 8 x ||| place 0 v) (trapWord v) := by
  simp [trapWord, placeOp, Opcode.code, extract_place_self, extract_place_other]

/-- A TRAP word is read as the service of its vector, or as TRAP itself. -/
theorem decode_trapForm (v : BitVec 8) (x : BitVec 4) :
    decode (place 12 0xF#4 ||| place 8 x ||| place 0 v) = decodeTrap v := by
  refine decode_of_readsAlike (wellFormed_decodeTrap v) ?_
  rw [readFields_decodeTrap, encode_decodeTrap]
  exact readsAlike_trapForm v x

theorem decodeTrap_unknown {v : BitVec 8} (hv : v.toNat < 0x20 ∨ 0x25 < v.toNat) : decodeTrap v = .trap v := by
  simp only [decodeTrap, (Machine.serviceOf_eq_none v).mpr hv]

end Sys2Proof

namespace Sys2Proof.Machine

/-- A vector of no service is FATAL (R187). -/
theorem dispatchTrap_unknown {v : BitVec 8} (hv : v.toNat < 0x20 ∨ 0x25 < v.toNat) (s : State) :
    dispatchTrap v s = .next (raiseFatal s (.unknownTrapVector v s.instr s.oldPc)) := by
  simp only [dispatchTrap, (serviceOf_eq_none v).mpr hv]

/-- Settles O38: R7 is written at the entry, and the dispatcher finds no service. -/
theorem trapUnknownVectorIsFatal : Obligations.TrapUnknownVectorIsFatal := fun s v x hv =>
  ⟨(decode_trapForm v x).trans (decodeTrap_unknown hv), dispatchTrap_unknown hv (trapEntry s), rfl⟩

/-- Console input goes to R0 and sets cond, never to NEG (R181, R184). -/
theorem inputToR0_eq (s : State) (b : Byte) : inputToR0 s b =
    { s with regs := s.regs.set 0 (b.setWidth 16), cond := if b = 0 then .zro else .pos } := by
  rw [← condOf_zext]
  rfl

/-- Settles O40: of the ends of GETC's read, only delivery goes with a pending byte. -/
theorem getcReadsAByte : Obligations.GetcReadsAByte := by
  intro s b rest x hp
  refine ⟨decode_trapForm 0x20 x, ?_⟩
  obtain ⟨hne, -⟩ | ⟨_, hne, -⟩ | ⟨_, _, hp', h⟩ := execGetc_cases s
  · cases hp.symm.trans hne
  · cases hp.symm.trans hne
  · cases hp.symm.trans hp'
    rw [h, inputToR0_eq]
    rfl

/-- Settles O41: OUT is one console write after the entry, which keeps R0. -/
theorem outEmitsTheLowByte : Obligations.OutEmitsTheLowByte := by
  intro s x
  refine ⟨decode_trapForm 0x21 x, ?_⟩
  rw [← trapEntry_reg_zero]
  rfl

/-- Settles O43: of the ends of IN's read, only delivery with its echo goes with a pending byte. -/
theorem inPromptsReadsAndEchoes : Obligations.InPromptsReadsAndEchoes := by
  intro s b rest x hp
  refine ⟨decode_trapForm 0x23 x, ?_⟩
  obtain ⟨hne, -⟩ | ⟨_, hne, -⟩ | ⟨_, _, hp', h⟩ := execInp_cases s
  · cases hp.symm.trans hne
  · cases hp.symm.trans hne
  · cases hp.symm.trans hp'
    rw [h, inputToR0_eq]
    rfl

/-- Settles O45: HALT is one console write after the entry, then the halt. -/
theorem haltPrintsAndHalts : Obligations.HaltPrintsAndHalts := fun _ x => ⟨decode_trapForm 0x25 x, rfl⟩

/-! ### PUTS and PUTSP (spec/43_trap.md R183, R185, R186)

Both are one scan, from R0 when they execute and from where they are unfinished when they go on. -/

/-- The instruction `i` is a string scan: `emit` is what it emits for a word, `mark` how it is unfinished. -/
structure ScanService (i : Instr) (emit : Word → List Byte) (mark : Word → UnfinishedStep) : Prop where
  exec : ∀ s, exec i s = scanTurn emit mark (s.reg 0) (trapEntry s)
  resume : ∀ a s, resumeStep (mark a) s = scanTurn emit mark a s
  scanning : ∀ {s : State} {a : Word}, s.unfinished = some (mark a) → s.scanning = true
  emits : ∀ w, 1 ≤ (emit w).length

theorem scanning_puts {s : State} {a : Word} (h : s.unfinished = some (.puts a)) : s.scanning = true := by
  simp [State.scanning, h]

theorem scanning_putsp {s : State} {a : Word} (h : s.unfinished = some (.putsp a)) : s.scanning = true := by
  simp [State.scanning, h]

theorem scanService_puts : ScanService .puts putsBytes .puts where
  exec s := congrArg (scanTurn putsBytes .puts · (trapEntry s)) (trapEntry_reg_zero s)
  resume _ _ := rfl
  scanning := scanning_puts
  emits _ := Nat.le_refl 1

theorem emitPutsp_eq : emitPutsp = putspBytes := by
  funext w
  exact (apply_ite (lowByte w :: ·) (highByte w = 0) [] [highByte w]).symm

theorem scanService_putsp : ScanService .putsp putspBytes .putsp where
  exec s := by
    rw [← emitPutsp_eq, ← trapEntry_reg_zero]
    rfl
  resume a s := by
    rw [← emitPutsp_eq]
    rfl
  scanning := scanning_putsp
  emits w := Nat.le_add_left 1 _

/-- Where only memory and console differ, a register write starts from the same registers. -/
theorem SameButMemConsole.setReg_eq {s u : State} (h : SameButMemConsole s u) (r : RegIdx) (v : Word) :
    u.setReg r v = { u with regs := s.regs.set r v } := by
  rw [State.setReg, h.regs]

/-- The host ends no run during a scan (spec/60_exceptions.md R225). -/
theorem hostTurn_aborted_of_scanning {s : State} (h : s.scanning = true) : (hostTurn s).aborted = s.aborted := by
  obtain ⟨_, _, _, e, hab⟩ := hostTurn_cases s
  rw [e]
  exact hab h

theorem setUnfinished_of_eq {s : State} {o : Option UnfinishedStep} (h : s.unfinished = o) : s.setUnfinished o = s := by
  subst h
  rfl

section ScanService
variable {i : Instr} {emit : Word → List Byte} {mark : Word → UnfinishedStep} {s : State} {a : Word} {n : Nat}

/-- A scan from R0 that meets a zero word completes there. -/
theorem ScanService.exec_ends (hs : ScanService i emit mark) (h : ScanEndsAfter s (s.reg 0) n) :
    Machine.exec i s = .next { scannedTo emit s (s.reg 0) (n + 1) n with
      regs := s.regs.set 7 s.pc
      unfinished := none } := by
  rw [hs.exec, trapEntry, scanTurn_ends _ _ _ _ _ (ScanEndsAfter_setReg.mpr h), scannedTo_setReg,
    (scannedTo_same _ _ _ _ _).setReg_eq]
  rfl

/-- A scan from R0 that meets no zero word in a lap is left unfinished where it began. -/
theorem ScanService.exec_goes_on (hs : ScanService i emit mark) (h : ScanMeetsNoZero s (s.reg 0)) :
    Machine.exec i s = .next { scannedTo emit s (s.reg 0) 65536 65536 with
      regs := s.regs.set 7 s.pc
      unfinished := some (mark (s.reg 0)) } := by
  rw [hs.exec, trapEntry, scanTurn_goes_on _ _ _ _ (ScanMeetsNoZero_setReg.mpr h), scannedTo_setReg,
    (scannedTo_same _ _ _ _ _).setReg_eq]
  rfl

/-- A step of an unfinished scan is the host's act and one more turn. -/
theorem ScanService.step_eq (hs : ScanService i emit mark) (hr : s.run = .running) (ha : s.aborted = false)
    (hu : s.unfinished = some (mark a)) : step s = scanTurn emit mark a (hostTurn s) :=
  (step_of_unfinished hr ha ((hostTurn_aborted_of_scanning (hs.scanning hu)).trans ha) hu).trans (hs.resume a _)

/-- The turn that meets a zero word ends the scan. -/
theorem ScanService.step_ends (hs : ScanService i emit mark) (hr : s.run = .running) (ha : s.aborted = false)
    (hu : s.unfinished = some (mark a)) (h : ScanEndsAfter (hostTurn s) a n) :
    step s = .next { scannedTo emit (hostTurn s) a (n + 1) n with unfinished := none } :=
  (hs.step_eq hr ha hu).trans (scanTurn_ends emit mark _ a n h)

/-- A turn that meets none emits one more lap. -/
theorem ScanService.step_goes_on (hs : ScanService i emit mark) (hr : s.run = .running) (ha : s.aborted = false)
    (hu : s.unfinished = some (mark a)) (h : ScanMeetsNoZero (hostTurn s) a) :
    step s = .next (scannedTo emit (hostTurn s) a 65536 65536) := by
  have hmark := ((scannedTo_same emit (hostTurn s) a 65536 65536).unfinished.trans (hostTurn_unfinished s)).trans hu
  rw [hs.step_eq hr ha hu, scanTurn_goes_on emit mark _ a h, setUnfinished_of_eq hmark]

end ScanService

/-- Settles O42: PUTS is a scan whose first lap ends. -/
theorem putsEmitsTheString : Obligations.PutsEmitsTheString := fun _ _ x h =>
  ⟨decode_trapForm 0x22 x, scanService_puts.exec_ends h⟩

/-- Settles O44: PUTSP is a scan whose first lap ends. -/
theorem putspEmitsThePackedString : Obligations.PutspEmitsThePackedString := fun _ _ x h =>
  ⟨decode_trapForm 0x24 x, scanService_putsp.exec_ends h⟩

/-- Settles O47: both are scans, whose laps end or go on, in `exec` and in later turns. -/
theorem unfinishedScanGoesOn : Obligations.UnfinishedScanGoesOn := fun _ _ _ =>
  ⟨fun h => ⟨scanService_puts.exec_goes_on h, scanService_putsp.exec_goes_on h⟩,
    fun hr ha hu => ⟨scanService_puts.step_ends hr ha hu, scanService_puts.step_goes_on hr ha hu⟩,
    fun hr ha hu => ⟨scanService_putsp.step_ends hr ha hu, scanService_putsp.step_goes_on hr ha hu⟩⟩

end Sys2Proof.Machine

/-! ### Scans that never end (spec/43_trap.md R185, spec/70_reset_and_hazards.md R262)

A lap reads every cell once. `Endless` says of a state why every coming lap meets no zero word; a lap keeps it. -/

namespace Sys2Proof.Machine

/-- A cell is met at its distance from the start of the lap. -/
theorem add_ofNat_toNat_sub (a b : Word) : a + BitVec.ofNat 16 (b - a).toNat = b :=
  (add_ofNat_eq_iff a b (b - a).isLt).mpr rfl

theorem scanWord_plain {s : State} (h : s.params.stringReadIntercepts = false) (a : Word) (k : Nat) :
    scanWord s a k = rawRead s (a + BitVec.ofNat 16 k) := by
  rw [scanWord, afterScanReads_plain s a _ h]

/-- A plain lap reads all the cells as they are. -/
theorem scanMeetsNoZero_plain_iff {s : State} (h : s.params.stringReadIntercepts = false) (a : Word) :
    ScanMeetsNoZero s a ↔ ∀ b, rawRead s b ≠ 0 := by
  simp only [ScanMeetsNoZero, scanWord_plain h]
  constructor
  · intro hk b
    rw [← add_ofNat_toNat_sub a b]
    exact hk _ (b - a).isLt
  · intro hb k _
    exact hb _

/-- An intercepting scan has polled once its reads have passed KBSR_ADDR. -/
theorem afterScanReads_polled {s : State} {a : Word} {k : Nat} (h : s.params.stringReadIntercepts = true)
    (hk : (s.params.kbsrAddr - a).toNat < k) : afterScanReads s a k = kbsrPoll s := by
  simp only [afterScanReads, h, hk, decide_true, Bool.and_self, if_true]

theorem afterScanReads_not_polled {s : State} {a : Word} {k : Nat} (hk : ¬(s.params.kbsrAddr - a).toNat < k) :
    afterScanReads s a k = s := by
  simp only [afterScanReads, hk, decide_false, Bool.and_false, Bool.false_eq_true, if_false]

/-- The read that reaches KBSR_ADDR returns what the poll has left there. -/
theorem scanWord_kbsrAddr {s : State} (h : s.params.stringReadIntercepts = true) (a : Word) :
    scanWord s a (s.params.kbsrAddr - a).toNat = rawRead (kbsrPoll s) s.params.kbsrAddr := by
  rw [scanWord, afterScanReads_polled h (Nat.lt_succ_self _), add_ofNat_toNat_sub]

/-- A poll that finds no byte ready ends an intercepting scan (R56). -/
theorem not_scanMeetsNoZero_of_not_ready {s : State} (hi : s.params.stringReadIntercepts = true) (hm : s.MemWf)
    (h : s.console.pending = [] ∨ s.console.polls.head? = some .ioError ∨ s.console.pending.head? = some .failure)
    (a : Word) : ¬ScanMeetsNoZero s a := fun hk =>
  hk _ (s.params.kbsrAddr - a).isLt ((scanWord_kbsrAddr hi a).trans (kbsrPollNotReady s hm h).1)

/-- An intercepting lap meets no zero word where the cells before the poll, KBSR apart, and all cells after it are
non-zero. -/
theorem scanMeetsNoZero_of_poll {s : State} (hi : s.params.stringReadIntercepts = true)
    (hbefore : ∀ c, c ≠ s.params.kbsrAddr → rawRead s c ≠ 0) (hafter : ∀ c, rawRead (kbsrPoll s) c ≠ 0) (a : Word) :
    ScanMeetsNoZero s a := by
  intro k hk
  by_cases hpoll : (s.params.kbsrAddr - a).toNat < k + 1
  · rw [scanWord, afterScanReads_polled hi hpoll]
    exact hafter _
  · rw [scanWord, afterScanReads_not_polled hpoll]
    refine hbefore _ fun e => ?_
    have hat := (add_ofNat_eq_iff a _ hk).mp e
    omega

/-! #### The always-ready console -/

/-- Intercepting string reads with a byte always ready, and no zero word but KBSR, which a poll sets. -/
structure ReadyFull (s : State) (b : Byte) : Prop where
  intercepts : s.params.stringReadIntercepts = true
  params : s.params.wf
  mem : s.MemWf
  byte : b ≠ 0
  ready : AlwaysReady s b
  full : ∀ c, c ≠ s.params.kbsrAddr → rawRead s c ≠ 0

/-- The state in which the host has supplied the byte of an always-ready console. -/
def State.supplied (s : State) (b : Byte) : State := s.setConsole { s.console with pending := [.byte b] }

/-- The cycle's one event is taken, and is there again at the next turn. -/
theorem AlwaysReady.hostTurn_eq {s : State} {b : Byte} (h : AlwaysReady s b) : hostTurn s = s.supplied b := by
  obtain ⟨hpending, -, hhost, hcycle⟩ := h
  simp only [hostTurn, hhost, hcycle, hostAct, hpending, List.nil_append, State.supplied, State.setConsole]

/-- Zero-extension keeps the low byte. -/
theorem setWidth_byte_ne_zero {b : Byte} (h : b ≠ 0) : b.setWidth 16 ≠ 0#16 := fun e =>
  h (by simpa using congrArg (BitVec.setWidth 8) e)

/-- The poll of the byte supplied puts KBSR ready, the byte into KBDR, and leaves the console as before the host's
turn. -/
theorem ReadyFull.poll {s : State} {b : Byte} (h : ReadyFull s b) :
    (∀ c, rawRead (kbsrPoll (s.supplied b)) c ≠ 0) ∧ ReadyFull (kbsrPoll (s.supplied b)) b := by
  obtain ⟨hpending, hpolls, hhost, hcycle⟩ := h.ready
  have hanswers : (s.supplied b).console.polls.head? ≠ some .ioError := by simp [State.supplied, hpolls]
  obtain ⟨hkbsr, hkbdr, hother, heq⟩ := kbsrPollReady (s.supplied b) b [] h.params h.mem rfl hanswers
  have hfull (c : Word) : rawRead (kbsrPoll (s.supplied b)) c ≠ 0 := by
    by_cases hs : c = s.params.kbsrAddr
    · rw [hs]
      exact hkbsr.trans_ne (by decide)
    · by_cases hd : c = s.params.kbdrAddr
      · rw [hd]
        exact hkbdr.trans_ne (setWidth_byte_ne_zero h.byte)
      · rw [hother c hs hd]
        exact h.full c hs
  have hsame := kbsrPoll_same (s.supplied b)
  refine ⟨hfull, ?_, ?_, kbsrPoll_wf _ h.mem, h.byte, ?_, fun c _ => hfull c⟩
  · rw [hsame.params]
    exact h.intercepts
  · rw [hsame.params]
    exact h.params
  · rw [heq]
    exact ⟨rfl, congrArg List.tail hpolls, hhost, hcycle⟩

/-! #### Laps without end -/

/-- Why every lap from `s` on meets no zero word: plain reads of a full memory, or a console that is always ready. -/
inductive Endless (s : State) : Prop
  | plain (hi : s.params.stringReadIntercepts = false) (hfull : ∀ c, rawRead s c ≠ 0)
  | ready {b : Byte} (h : ReadyFull s b)

/-- Output does not end it. -/
theorem Endless.conWrite {s : State} (h : Endless s) (bs : List Byte) : Endless (conWrite s bs) := by
  cases h with
  | plain hi hfull => exact .plain hi hfull
  | ready h => exact .ready ⟨h.intercepts, h.params, h.mem, h.byte, h.ready, h.full⟩

/-- After the host's turn a lap meets no zero word, and the next lap will meet none. -/
theorem Endless.lap {s : State} (h : Endless s) (emit : Word → List Byte) (a : Word) :
    ScanMeetsNoZero (hostTurn s) a ∧ Endless (scannedTo emit (hostTurn s) a 65536 65536) := by
  suffices ScanMeetsNoZero (hostTurn s) a ∧ Endless (afterScanReads (hostTurn s) a 65536) from
    ⟨this.1, this.2.conWrite _⟩
  cases h with
  | plain hi hfull =>
    obtain ⟨es, rs, ab, e⟩ := hostTurn_frame s
    have hi' : (hostTurn s).params.stringReadIntercepts = false := by rw [e]; exact hi
    have hfull' (c : Word) : rawRead (hostTurn s) c ≠ 0 := by rw [e]; exact hfull c
    rw [afterScanReads_plain _ a _ hi']
    exact ⟨(scanMeetsNoZero_plain_iff hi' a).mpr hfull', .plain hi' hfull'⟩
  | @ready b h =>
    obtain ⟨hafter, hready⟩ := h.poll
    have hpolled : afterScanReads (s.supplied b) a 65536 = kbsrPoll (s.supplied b) :=
      afterScanReads_polled h.intercepts (BitVec.isLt _)
    rw [h.ready.hostTurn_eq, hpolled]
    exact ⟨scanMeetsNoZero_of_poll (s := s.supplied b) h.intercepts h.full hafter a, .ready hready⟩

/-- A running scan, unfinished at `m`, that never ends. -/
structure HangsAt (m : UnfinishedStep) (s : State) : Prop where
  run : s.run = .running
  aborted : s.aborted = false
  unfinished : s.unfinished = some m
  endless : Endless s

/-- From `s` to `t` the same step has gone on: R7 and pc stand, and at least `n` bytes have come out. -/
structure GoesOn (s : State) (n : Nat) (t : State) : Prop where
  link : t.reg 7 = s.reg 7
  pc : t.pc = s.pc
  output : s.console.output.length + n ≤ t.console.output.length

theorem GoesOn.refl (s : State) : GoesOn s 0 s := ⟨rfl, rfl, Nat.le_refl _⟩

theorem GoesOn.trans {s t u : State} {m n : Nat} (h : GoesOn s m t) (k : GoesOn t n u) : GoesOn s (m + n) u where
  link := k.link.trans h.link
  pc := k.pc.trans h.pc
  output := by
    have hm := h.output
    have hn := k.output
    omega

theorem hostTurn_goesOn (s : State) : GoesOn s 0 (hostTurn s) := by
  obtain ⟨_, _, _, e⟩ := hostTurn_frame s
  rw [e]
  exact ⟨rfl, rfl, Nat.le_refl _⟩

section ScanService
variable {i : Instr} {emit : Word → List Byte} {mark : Word → UnfinishedStep}

/-- A byte or more for every word. -/
theorem ScanService.le_length_scanOutput (hs : ScanService i emit mark) (s : State) (a : Word) (n : Nat) :
    n ≤ (scanOutput emit s a n).length := by
  induction n with
  | zero => exact Nat.zero_le _
  | succ n ih =>
    rw [scanOutput, List.range_succ, List.flatMap_append, List.length_append, List.flatMap_singleton]
    exact Nat.add_le_add ih (hs.emits _)

theorem ScanService.scannedTo_goesOn (hs : ScanService i emit mark) (s : State) (a : Word) (r n : Nat) :
    GoesOn s n (scannedTo emit s a r n) where
  link := (scannedTo_same emit s a r n).reg 7
  pc := (scannedTo_same emit s a r n).pc
  output := by
    rw [scannedTo_output, List.length_append]
    exact Nat.add_le_add_left (hs.le_length_scanOutput s a n) _

/-- A turn of an endless scan is one lap, after which it is endless as before. -/
theorem ScanService.step_hangs (hs : ScanService i emit mark) {s : State} {a : Word} (h : HangsAt (mark a) s) :
    ∃ t, step s = .next t ∧ HangsAt (mark a) t ∧ GoesOn s 65536 t := by
  obtain ⟨hzero, hendless⟩ := h.endless.lap emit a
  have hsame := scannedTo_same emit (hostTurn s) a 65536 65536
  have haborted := (hostTurn_aborted_of_scanning (hs.scanning h.unfinished)).trans h.aborted
  refine ⟨_, hs.step_goes_on h.run h.aborted h.unfinished hzero, ⟨?_, hsame.aborted.trans haborted, ?_, hendless⟩, ?_⟩
  · exact (hsame.run.trans (hostTurn_run s)).trans h.run
  · exact (hsame.unfinished.trans (hostTurn_unfinished s)).trans h.unfinished
  · exact (hostTurn_goesOn s).trans (hs.scannedTo_goesOn (hostTurn s) a 65536 65536)

/-- So after any number of turns. -/
theorem ScanService.run_hangs (hs : ScanService i emit mark) {a : Word} (n : Nat) : ∀ {s : State}, HangsAt (mark a) s →
    ∃ t, Sys2Proof.core.run n s = .next t ∧ HangsAt (mark a) t ∧ GoesOn s (65536 * n) t := by
  induction n with
  | zero => exact fun {s} h => ⟨s, rfl, h, .refl s⟩
  | succ n ih =>
    intro s h
    obtain ⟨t, hstep, ht, hgo⟩ := hs.step_hangs h
    obtain ⟨u, hrun, hu, hgo'⟩ := ih ht
    refine ⟨u, (core_run_succ n hstep).trans hrun, hu, ?_⟩
    rw [Nat.mul_succ, Nat.add_comm]
    exact hgo.trans hgo'

end ScanService

/-- Settles O46: a plain lap reads all cells, an intercepting one needs a byte at its poll, and an endless scan is endless
after every turn. -/
theorem stringScanHangsIffNoZeroWord : Obligations.StringScanHangsIffNoZeroWord := by
  intro s
  refine ⟨scanMeetsNoZero_plain_iff, not_scanMeetsNoZero_of_not_ready, fun a hr ha hu hsource n => ?_⟩
  have hendless : Endless s := by
    obtain ⟨hi, hfull⟩ | ⟨hi, hp, hm, ⟨b, hb, hready⟩, hfull⟩ := hsource
    · exact .plain hi hfull
    · exact .ready ⟨hi, hp, hm, hb, hready, hfull⟩
  obtain ⟨_, _, _, hs, hm⟩ : ∃ i emit mark, ScanService i emit mark ∧ s.unfinished = some (mark a) :=
    hu.elim (fun h => ⟨_, _, _, scanService_puts, h⟩) (fun h => ⟨_, _, _, scanService_putsp, h⟩)
  obtain ⟨t, hrun, ht, hgo⟩ := hs.run_hangs n ⟨hr, ha, hm, hendless⟩
  exact ⟨t, hrun, ht.run, ht.aborted, ht.unfinished.trans hm.symm, hgo.link, hgo.pc, hgo.output⟩

end Sys2Proof.Machine

/-! ### RTI and RES (spec/44_unimplemented.md R210, R211)

Neither has operands: bits 11:0 are ignored, and the opcode alone selects the instruction (R88). -/

namespace Sys2Proof

/-- The opcode is all that the decoder of RTI and RES reads. -/
theorem readsAlike_opcodeForm (op : BitVec 4) (x : BitVec 12) :
    ReadsAlike [(12, 4)] (place 12 op ||| place 0 x) (place 12 op) := by
  simp [extract_place_self, extract_place_other]

end Sys2Proof

namespace Sys2Proof.Machine

/-- Taking the unimplemented-opcode exception exposes the exit status 127 (spec/60_exceptions.md R232). -/
theorem exitStatus_unimplementedOpcode (s : State) (op : UnimplementedOp) (w p : Word) :
    exitStatus (raiseFatal s (.unimplementedOpcode op w p)) = some 127 := rfl

/-- Settles O50: the word reads as the encoding of the row its opcode selects, and the row raises FATAL from the state
as it is. -/
theorem unimplementedOpcodesAreFatal : Obligations.UnimplementedOpcodesAreFatal := fun s x =>
  ⟨decode_of_readsAlike rfl (readsAlike_opcodeForm 0x8 x), rfl, exitStatus_unimplementedOpcode s .rti s.instr s.oldPc,
    decode_of_readsAlike rfl (readsAlike_opcodeForm 0xD x), rfl, exitStatus_unimplementedOpcode s .res s.instr s.oldPc⟩

end Sys2Proof.Machine

/-! ### How the engine comes out of an instruction (spec/10_state.md R32, spec/60_exceptions.md R220 to R226)

An instruction runs a trap service or none. `exec_engineEnd` says once, by that service, whether the engine goes on, waits,
halts or is FATAL. -/

namespace Sys2Proof

/-- The trap service an instruction runs, named by its row or by its vector. -/
def Instr.service : Instr → Option TrapService
  | .trap v => serviceOf v
  | .getc => some .getc
  | .out => some .out
  | .puts => some .puts
  | .inp => some .inp
  | .putsp => some .putsp
  | .halt => some .halt
  | _ => none

theorem Instr.service_eq_some_iff {i : Instr} {v : TrapService} :
    i.service = some v ↔ i = decodeTrap v.vector ∨ i = .trap v.vector := by
  constructor
  · intro h
    cases i with
    | trap => exact .inr (congrArg _ (serviceOf_eq_some h))
    | getc | out | puts | inp | putsp | halt => cases h; exact .inl rfl
    | _ => cases h
  · rintro (rfl | rfl)
    · cases v <;> rfl
    · exact serviceOf_vector v

/-- GETC or IN. -/
abbrev Instr.ReadsConsole (i : Instr) : Prop := i.service = some .getc ∨ i.service = some .inp

/-- PUTS or PUTSP. -/
abbrev Instr.ScansString (i : Instr) : Prop := i.service = some .puts ∨ i.service = some .putsp

theorem Instr.readsConsole_iff {i : Instr} :
    i.ReadsConsole ↔ i = .getc ∨ i = .inp ∨ i = .trap 0x20 ∨ i = .trap 0x23 := by
  rw [Instr.ReadsConsole, service_eq_some_iff, service_eq_some_iff, or_or_or_comm, or_assoc]
  rfl

theorem Instr.scansString_iff {i : Instr} :
    i.ScansString ↔ i = .puts ∨ i = .putsp ∨ i = .trap 0x22 ∨ i = .trap 0x24 := by
  rw [Instr.ScansString, service_eq_some_iff, service_eq_some_iff, or_or_or_comm, or_assoc]
  rfl

end Sys2Proof

namespace Sys2Proof.Machine

theorem exec_of_service {i : Instr} {v : TrapService} (h : i.service = some v) (s : State) :
    exec i s = exec (decodeTrap v.vector) s := by
  obtain rfl | rfl := Instr.service_eq_some_iff.mp h
  · rfl
  · exact (exec_decodeTrap v.vector s).symm

/-! #### A turn of GETC or IN, by the next console reply -/

/-- The state in which a console read has failed, the replies `rs` still to come (R223). -/
def State.readFailed (s : State) (rs : List ReadReply) : State :=
  raiseFatal ((s.setConsole { s.console with pending := rs }).setUnfinished none) (.consoleReadFailure s.oldPc)

/-- The step is a console read: GETC or IN. -/
abbrev UnfinishedStep.IsRead (m : UnfinishedStep) : Prop := m = .getc ∨ m = .inp

section Read
variable {m : UnfinishedStep} {s : State} {b : Byte} {rs : List ReadReply}

theorem resumeRead_of_empty (hm : m.IsRead) (hp : s.console.pending = []) :
    resumeStep m s = .next (s.setUnfinished (some m)) := by
  obtain rfl | rfl := hm
  · simp [resumeStep, getcRead, conRead, hp]
  · simp [resumeStep, inpRead, conRead, hp]

theorem resumeRead_of_failure (hm : m.IsRead) (hp : s.console.pending = .failure :: rs) :
    resumeStep m s = .next (s.readFailed rs) := by
  obtain rfl | rfl := hm
  · simp [resumeStep, getcRead, conRead, hp, State.readFailed]
  · simp [resumeStep, inpRead, conRead, hp, State.readFailed]

theorem resumeGetc_of_byte (hp : s.console.pending = .byte b :: rs) : resumeStep .getc s =
    .next (inputToR0 ((s.setConsole { s.console with pending := rs }).setUnfinished none) b) := by
  simp [resumeStep, getcRead, conRead, hp]

theorem resumeInp_of_byte (hp : s.console.pending = .byte b :: rs) : resumeStep .inp s =
    .next (inputToR0 (conWrite ((s.setConsole { s.console with pending := rs }).setUnfinished none) [b]) b) := by
  simp [resumeStep, inpRead, conRead, hp]

/-- A read that gets a byte completes, and the engine goes on. -/
theorem resumeRead_of_byte (hm : m.IsRead) (hp : s.console.pending = .byte b :: rs) :
    ∃ t, resumeStep m s = .next t ∧ t.run = s.run ∧ t.unfinished = none := by
  obtain rfl | rfl := hm
  · exact ⟨_, resumeGetc_of_byte hp, rfl, rfl⟩
  · exact ⟨_, resumeInp_of_byte hp, rfl, rfl⟩

end Read

theorem OutputEnd.run {s t : State} (h : OutputEnd s t) : t.run = s.run := by
  obtain ⟨_, h⟩ := h
  exact h.run

/-- An unfinished step of a running engine enters FATAL only as a console read that fails. -/
theorem resumeStep_fatal {m : UnfinishedStep} {s t : State} {r : FatalReason} (hr : s.run = .running)
    (h : resumeStep m s = .next t) (ht : t.run = .fatal r) : m.IsRead ∧ ∃ rs, t = s.readFailed rs := by
  have hread (hm : m.IsRead) : ∃ rs, t = s.readFailed rs := by
    rcases hp : s.console.pending with _ | ⟨_ | _, rs⟩
    · cases (resumeRead_of_empty hm hp).symm.trans h
      cases hr.symm.trans ht
    · obtain ⟨_, e, hrun, -⟩ := resumeRead_of_byte hm hp
      cases e.symm.trans h
      cases (hrun.trans hr).symm.trans ht
    · cases (resumeRead_of_failure hm hp).symm.trans h
      exact ⟨rs, rfl⟩
  have hscan (hend : OutputEnd s t) : False := by cases (hend.run.trans hr).symm.trans ht
  cases m with
  | getc => exact ⟨.inl rfl, hread (.inl rfl)⟩
  | inp => exact ⟨.inr rfl, hread (.inr rfl)⟩
  | puts a => exact (hscan (holds_of_next (scanTurn_next _ _ a s) h)).elim
  | putsp a => exact (hscan (holds_of_next (scanTurn_next _ _ a s) h)).elim

/-! #### The ways an instruction leaves the engine -/

/-- How an instruction that runs in `s` is FATAL, with which reason (R220). -/
inductive FatalEnd (s : State) : Instr → FatalReason → State → Prop
  | rti : FatalEnd s .rti (.unimplementedOpcode .rti s.instr s.oldPc)
      (raiseFatal s (.unimplementedOpcode .rti s.instr s.oldPc))
  | res : FatalEnd s .res (.unimplementedOpcode .res s.instr s.oldPc)
      (raiseFatal s (.unimplementedOpcode .res s.instr s.oldPc))
  | unknownVector {v : BitVec 8} (hv : v.toNat < 0x20 ∨ 0x25 < v.toNat) :
      FatalEnd s (.trap v) (.unknownTrapVector v s.instr s.oldPc)
        (raiseFatal (trapEntry s) (.unknownTrapVector v s.instr s.oldPc))
  /-- GETC or IN, after the bytes `bs` of its prompt. -/
  | readFails {i : Instr} {bs : List Byte} {rs : List ReadReply} (hi : i.ReadsConsole)
      (hp : s.console.pending = .failure :: rs) (hbs : bs = [] ∨ bs = s.params.inPrompt) :
      FatalEnd s i (.consoleReadFailure s.oldPc) ((conWrite (trapEntry s) bs).readFailed rs)

/-- How an instruction that runs in `s` leaves the engine: `run` and the unfinished step, by the service it runs. -/
inductive EngineEnd (s : State) (i : Instr) : State → Prop
  | goesOn {t : State} (hi : i.service = none ∨ i.service = some .out) (hr : t.run = s.run)
      (hu : t.unfinished = s.unfinished) : EngineEnd s i t
  | halts {u : State} (hi : i.service = some .halt) (hu : u.unfinished = s.unfinished) : EngineEnd s i (haltEngine u)
  | reads {t : State} (hi : i.ReadsConsole) (hr : t.run = s.run)
      (hu : t.unfinished ≠ none ↔ s.console.pending = []) : EngineEnd s i t
  | scans {t : State} (hi : i.ScansString) (hr : t.run = s.run)
      (hu : t.unfinished ≠ none ↔ ScanMeetsNoZero s (s.reg 0)) : EngineEnd s i t
  | fatal {r : FatalReason} {t : State} (h : FatalEnd s i r t) : EngineEnd s i t

section Ends
variable {i : Instr} {s t : State}

/-- GETC and IN are a read after the entry and the prompt, if there is one (R181, R184). -/
theorem engineEnd_of_read {m : UnfinishedStep} {bs : List Byte} (hm : m.IsRead) (hi : i.ReadsConsole)
    (hbs : bs = [] ∨ bs = s.params.inPrompt) (h : resumeStep m (conWrite (trapEntry s) bs) = .next t) :
    EngineEnd s i t := by
  have hpending : (conWrite (trapEntry s) bs).console.pending = s.console.pending := rfl
  rcases hp : s.console.pending with _ | ⟨_ | _, rs⟩
  · cases (resumeRead_of_empty hm (hpending.trans hp)).symm.trans h
    exact .reads hi rfl (iff_of_true (by simp) hp)
  · obtain ⟨_, e, hr, hu⟩ := resumeRead_of_byte hm (hpending.trans hp)
    cases e.symm.trans h
    exact .reads hi hr (by simp [hu, hp])
  · cases (resumeRead_of_failure hm (hpending.trans hp)).symm.trans h
    exact .fatal (.readFails hi hp hbs)

theorem ScanEndsAfter.not_meetsNoZero {a : Word} {n : Nat} (h : ScanEndsAfter s a n) : ¬ScanMeetsNoZero s a :=
  fun hz => hz n h.1 h.2.1

/-- PUTS and PUTSP are left unfinished by a lap with no zero word (R185). -/
theorem ScanService.engineEnd {j : Instr} {emit : Word → List Byte} {mark : Word → UnfinishedStep}
    (hs : ScanService j emit mark) (hi : i.ScansString) (h : Machine.exec j s = .next t) : EngineEnd s i t := by
  obtain ⟨n, hn⟩ | hz := scan_ends_or_not s (s.reg 0)
  · cases (hs.exec_ends hn).symm.trans h
    exact .scans hi (scannedTo_same emit s _ _ n).run (iff_of_false (by simp) hn.not_meetsNoZero)
  · cases (hs.exec_goes_on hz).symm.trans h
    exact .scans hi (scannedTo_same emit s _ _ 65536).run (iff_of_true (by simp) hz)

theorem engineEnd_of_service {v : TrapService} (hi : i.service = some v)
    (h : exec (decodeTrap v.vector) s = .next t) : EngineEnd s i t := by
  cases v with
  | getc =>
    have hentry := congrArg (resumeStep .getc) (conWrite_nil (trapEntry s))
    exact engineEnd_of_read (.inl rfl) (.inl hi) (.inl rfl) (hentry.trans h)
  | inp => exact engineEnd_of_read (.inr rfl) (.inr hi) (.inr rfl) h
  | out => cases h; exact .goesOn (.inr hi) rfl rfl
  | puts => exact scanService_puts.engineEnd (.inl hi) h
  | putsp => exact scanService_putsp.engineEnd (.inr hi) h
  | halt => cases h; exact .halts hi rfl

/-- Without a service an instruction touches the run state only to be FATAL. -/
theorem engineEnd_of_no_service (hi : i.service = none) (h : exec i s = .next t) : EngineEnd s i t := by
  have hgo {u : State} (hsame : SameButMemConsole s u) (hr : t.run = u.run) (hu : t.unfinished = u.unfinished) :
      EngineEnd s i t := .goesOn (.inl hi) (hr.trans hsame.run) (hu.trans hsame.unfinished)
  cases i with
  | addReg | addImm | andReg | andImm | not | lea | jmp | ret | jsr | jsrr | st | str =>
    cases h
    exact hgo (.refl s) rfl rfl
  | br nzp off9 =>
    cases (exec_br nzp off9 s).symm.trans h
    exact hgo (.refl s) rfl rfl
  | ld | ldr =>
    cases h
    exact hgo (memReadState_same s _) rfl rfl
  | ldi dr off9 =>
    cases h
    exact hgo ((eaIndirect_same s off9).trans (memReadState_same _ _)) rfl rfl
  | sti sr off9 =>
    cases h
    exact hgo (eaIndirect_same s off9) rfl rfl
  | trap v =>
    have hv := (serviceOf_eq_none v).mp hi
    cases (dispatchTrap_unknown hv (trapEntry s)).symm.trans h
    exact .fatal (.unknownVector hv)
  | rti => cases h; exact .fatal .rti
  | res => cases h; exact .fatal .res
  | getc | out | puts | inp | putsp | halt => cases hi

theorem exec_engineEnd (h : exec i s = .next t) : EngineEnd s i t := by
  cases hi : i.service with
  | none => exact engineEnd_of_no_service hi h
  | some v => exact engineEnd_of_service hi ((exec_of_service hi s).symm.trans h)

/-! #### What FATAL leaves -/

/-- From `s`, FATAL with reason `r` has recorded old_pc and has made at most R7 <- pc and the prompt (R226). -/
structure FatalFrame (s : State) (r : FatalReason) (t : State) : Prop where
  run : t.run = .fatal r
  recorded : fatalOldPc r = s.oldPc
  params : t.params = s.params
  pc : t.pc = s.pc
  cond : t.cond = s.cond
  mem : t.mem = s.mem
  regs : t.regs = s.regs ∨ t.regs = (trapEntry s).regs
  output : t.console.output = s.console.output ∨ t.console.output = s.console.output ++ s.params.inPrompt

theorem FatalEnd.frame {r : FatalReason} (h : FatalEnd s i r t) : FatalFrame s r t := by
  cases h with
  | rti | res => exact ⟨rfl, rfl, rfl, rfl, rfl, rfl, .inl rfl, .inl rfl⟩
  | unknownVector => exact ⟨rfl, rfl, rfl, rfl, rfl, rfl, .inr rfl, .inl rfl⟩
  | readFails _ _ hbs =>
    refine ⟨rfl, rfl, rfl, rfl, rfl, rfl, .inr rfl, ?_⟩
    obtain rfl | rfl := hbs
    · exact .inl (List.append_nil _)
    · exact .inr rfl

theorem FatalFrame.reg {r : FatalReason} (h : FatalFrame s r t) {q : RegIdx} (hq : q ≠ 7) : t.reg q = s.reg q := by
  obtain hregs | hregs := h.regs
  · exact reg_congr hregs q
  · exact (reg_congr hregs q).trans (trapEntry_reg hq)

theorem FatalFrame.link {r : FatalReason} (h : FatalFrame s r t) : t.reg 7 = s.reg 7 ∨ t.reg 7 = s.pc := by
  obtain hregs | hregs := h.regs
  · exact .inl (reg_congr hregs 7)
  · exact .inr ((reg_congr hregs 7).trans (reg_setReg_self s 7 s.pc))

theorem FatalFrame.rawRead {r : FatalReason} (h : FatalFrame s r t) (a : Word) :
    Machine.rawRead t a = Machine.rawRead s a := by
  rw [Machine.rawRead, Machine.rawRead, h.params, h.mem]

/-- FATAL leaves no step unfinished. -/
theorem FatalEnd.unfinished {r : FatalReason} (h : FatalEnd s i r t) (hu : s.unfinished = none) :
    t.unfinished = none := by
  cases h with
  | rti | res | unknownVector => exact hu
  | readFails => rfl

/-- An instruction that is FATAL runs no service, or a read that gets a reply. -/
theorem FatalEnd.service {r : FatalReason} (h : FatalEnd s i r t) :
    i.service = none ∨ i.ReadsConsole ∧ s.console.pending ≠ [] := by
  cases h with
  | rti | res => exact .inl rfl
  | unknownVector hv => exact .inl ((serviceOf_eq_none _).mpr hv)
  | readFails hi hp => exact .inr ⟨hi, by simp [hp]⟩

/-- Where nothing was unfinished, a step is left so exactly by a read with no reply and a lap with no zero word (R32). -/
theorem EngineEnd.unfinished_iff (h : EngineEnd s i t) (hu : s.unfinished = none) : t.unfinished ≠ none ↔
    (s.console.pending = [] ∧ i.ReadsConsole) ∨ (ScanMeetsNoZero s (s.reg 0) ∧ i.ScansString) := by
  unfold Instr.ReadsConsole Instr.ScansString
  cases h with
  | goesOn hi _ hsame => obtain hi | hi := hi <;> simp [hi, hsame, hu]
  | halts hi hsame => simp [hi, hsame, hu]
  | reads hi _ hiff => obtain hi | hi := hi <;> simp [hi, hiff]
  | scans hi _ hiff => obtain hi | hi := hi <;> simp [hi, hiff]
  | fatal h => obtain hi | ⟨hi | hi, hp⟩ := h.service <;> simp [h.unfinished hu, *]

end Ends

/-- Settles O14: by the ways an instruction leaves the engine. -/
theorem onlyListedInstructionsEndTheRun : Obligations.OnlyListedInstructionsEndTheRun := by
  intro i s t hr h
  cases exec_engineEnd h with
  | goesOn _ hsame | reads _ hsame | scans _ hsame => exact .inl (hsame.trans hr)
  | halts hi => exact .inr (.inl ⟨rfl, Instr.service_eq_some_iff.mp hi⟩)
  | fatal h =>
    refine .inr (.inr ?_)
    cases h with
    | rti => exact .inl ⟨rfl, rfl⟩
    | res => exact .inr (.inl ⟨rfl, rfl⟩)
    | unknownVector hv => exact .inr (.inr (.inl ⟨_, rfl, hv, rfl⟩))
    | readFails hi hp =>
      exact .inr (.inr (.inr ⟨rfl, congrArg List.head? hp, Instr.readsConsole_iff.mp hi⟩))

/-- Settles O15: every instruction has an end, and its end says whether it waits. -/
theorem everyInstructionRuns : Obligations.EveryInstructionRuns := by
  intro i s
  obtain ⟨t, h, -⟩ := exec_next i s
  refine ⟨t, h, fun hu => ?_⟩
  rw [← Instr.readsConsole_iff, ← Instr.scansString_iff]
  exact (exec_engineEnd h).unfinished_iff hu

/-- Settles O48: a failing read after the entry, IN's also after its prompt. -/
theorem consoleReadFailureIsFatal : Obligations.ConsoleReadFailureIsFatal := fun s _ hp =>
  ⟨resumeRead_of_failure (s := trapEntry s) (.inl rfl) hp,
    resumeRead_of_failure (s := conWrite (trapEntry s) s.params.inPrompt) (.inr rfl) hp⟩

/-! ### FATAL and the blocked read across a step (spec/60_exceptions.md R223, R226, R236) -/

@[simp] theorem fetch_reg (s : State) (q : RegIdx) : (fetch s).reg q = s.reg q := reg_congr (fetch_regs s) q

@[simp] theorem fetch_output (s : State) : (fetch s).console.output = s.console.output :=
  memReadState_output s s.pc

/-- A fetch leaves a cell as it was, unless the cell is one that a poll writes. -/
theorem rawRead_fetch_ne (s : State) {a : Word} (hsr : a ≠ s.params.kbsrAddr) (hdr : a ≠ s.params.kbdrAddr) :
    rawRead (fetch s) a = rawRead s a :=
  rawRead_memReadState_ne s s.pc hsr hdr

/-- Elsewhere than at KBSR_ADDR a fetch leaves memory alone. -/
theorem fetch_mem_plain {s : State} (h : s.pc ≠ s.params.kbsrAddr) : (fetch s).mem = s.mem := by
  rw [fetch_plain s h]

/-- A step that enters FATAL is a turn of an unfinished step, or an instruction. -/
theorem step_fatal_cases {s t : State} {r : FatalReason} (hr : s.run = .running) (h : step s = .next t)
    (ht : t.run = .fatal r) : (∃ m, s.unfinished = some m ∧ resumeStep m (hostTurn s) = .next t) ∨
      (s.unfinished = none ∧ exec (decode (fetch (hostTurn s)).instr) (fetch (hostTurn s)) = .next t) := by
  obtain ⟨-, rfl | h⟩ := step_cases h
  · cases ((hostTurn_run s).trans hr).symm.trans ht
  · exact h

theorem exec_fatal {i : Instr} {s t : State} {r : FatalReason} (hr : s.run = .running) (h : exec i s = .next t)
    (ht : t.run = .fatal r) : FatalEnd s i r t := by
  cases exec_engineEnd h with
  | goesOn _ hsame | reads _ hsame | scans _ hsame => cases (hsame.trans hr).symm.trans ht
  | halts => cases ht
  | fatal h => cases h.frame.run.symm.trans ht; exact h

/-- Settles O55: an instruction from the state after its fetch, which has latched old_pc, or a console read that fails in
the state in which it was blocked. -/
theorem fatalIsPrecise : Obligations.FatalIsPrecise := by
  intro s t r hr h ht
  have hrun := (hostTurn_run s).trans hr
  replace h := step_fatal_cases hr h ht
  obtain ⟨_, _, _, e⟩ := hostTurn_frame s
  rw [e] at hrun h
  obtain ⟨m, hm, h⟩ | ⟨hu, h⟩ := h
  · refine ⟨fun hu => by simp [hm] at hu, fun hinv hu => ?_⟩
    obtain ⟨-, hlink, hpc⟩ := hinv.unfinished hu
    obtain ⟨hread, _, rfl⟩ := resumeStep_fatal hrun h ht
    exact ⟨by simpa [hm] using hread, (RunState.fatal.inj ht).symm, hpc, hpc, hlink.trans hpc, rfl, rfl, rfl, rfl⟩
  · refine ⟨fun _ => ?_, fun _ hne => absurd hu hne⟩
    have hframe := (exec_fatal ((fetch_run _).trans hrun) h ht).frame
    exact ⟨hframe.recorded, hframe.pc, hframe.cond.trans (fetch_cond _),
      fun q hq => (hframe.reg hq).trans (fetch_reg _ q), hframe.link.imp_left (·.trans (fetch_reg _ 7)),
      by simpa using hframe.output, fun a hsr hdr => (hframe.rawRead a).trans (rawRead_fetch_ne _ hsr hdr),
      fun hpc => hframe.mem.trans (fetch_mem_plain hpc)⟩

section Blocked
variable {s : State} {m : UnfinishedStep} {rs : List ReadReply} {rest : List HostEvent}

/-- An unfinished step of a running engine goes on from the state `u` that the host's turn leaves. -/
theorem step_of_turn {u : State} (hr : s.run = .running) (ha : s.aborted = false) (hu : s.unfinished = some m)
    (ht : hostTurn s = u) (hab : u.aborted = false) : step s = resumeStep m u := by
  subst ht
  exact step_of_unfinished hr ha hab hu

/-- Without a reply a blocked read changes nothing. -/
theorem resumeRead_waits (hm : m.IsRead) (hu : s.unfinished = some m) (hp : s.console.pending = []) :
    resumeStep m s = .next s := by
  rw [resumeRead_of_empty hm hp, setUnfinished_of_eq hu]

/-- A blocked read to which the host's turn brings nothing stays blocked (R236). -/
theorem step_blocked_waits (hr : s.run = .running) (ha : s.aborted = false) (hp : s.console.pending = [])
    (hm : m.IsRead) (hu : s.unfinished = some m) (ht : hostTurn s = { s with host := rest }) :
    step s = .next { s with host := rest } :=
  (step_of_turn hr ha hu ht ha).trans (resumeRead_waits hm hu hp)

/-- A blocked read to which the host supplies replies goes on with them. -/
theorem step_blocked_supply (hr : s.run = .running) (ha : s.aborted = false) (hp : s.console.pending = [])
    (hu : s.unfinished = some m) (hh : s.host = .supply rs :: rest) : step s = resumeStep m
      { s with host := rest, console := { s.console with pending := rs } } :=
  step_of_turn hr ha hu (by simp [hostTurn_of_host hh, hostAct, hp]) ha

end Blocked

/-- Settles O54: without a reply the read blocks again; with one it goes on as it would have at first. -/
theorem blockedReadCompletesOnInput : Obligations.BlockedReadCompletesOnInput := by
  intro s b rs rest hr ha hp
  refine ⟨fun hu => ?_, fun hu hh => ?_, fun hu hh => ?_⟩
  · obtain ⟨m, hm, hu⟩ : ∃ m : UnfinishedStep, m.IsRead ∧ s.unfinished = some m :=
      hu.elim (fun h => ⟨_, .inl rfl, h⟩) (fun h => ⟨_, .inr rfl, h⟩)
    have hwaits {es : List HostEvent} := step_blocked_waits (rest := es) hr ha hp hm hu
    refine ⟨fun hh hc => hwaits (hostTurn_of_none_due hh hc), fun hh => hwaits (hostTurn_of_host hh),
      fun hh => hwaits ?_, fun hh => ?_⟩
    · simp [hostTurn_of_host hh, hostAct]
    · exact (step_blocked_supply hr ha hp hu hh).trans (resumeRead_of_failure hm rfl)
  · rw [step_blocked_supply hr ha hp hu hh, resumeGetc_of_byte rfl, inputToR0_eq]
    rfl
  · rw [step_blocked_supply hr ha hp hu hh, resumeInp_of_byte rfl, inputToR0_eq]
    rfl

/-! ### Exit status (spec/60_exceptions.md R220, R232) -/

theorem exitStatus_of_halted {s : State} (h : s.run = .halted) : exitStatus s = some 0 := by
  simp [exitStatus, runOutcome, h, outcomeStatus]

theorem exitStatus_of_fatal {s : State} {r : FatalReason} (h : s.run = .fatal r) :
    exitStatus s = some (fatalStatus s.params r) := by
  simp [exitStatus, runOutcome, h, outcomeStatus]

theorem exitStatus_of_running {s : State} (h : s.run = .running) :
    exitStatus s = if s.aborted then some s.params.exitAbort else none := by
  rw [exitStatus, runOutcome, h]
  exact apply_ite (Option.map _) _ _ _

/-- Settles O56: by the run state, and in RUNNING by the abort flag. -/
theorem exitStatusOfEachOutcome : Obligations.ExitStatusOfEachOutcome := fun _ _ _ _ _ =>
  ⟨exitStatus_of_halted, exitStatus_of_fatal, exitStatus_of_fatal, exitStatus_of_fatal,
    fun hr ha => (exitStatus_of_running hr).trans (if_pos ha),
    fun hr ha => (exitStatus_of_running hr).trans (if_neg (Bool.eq_false_iff.mp ha)), rfl, rfl, rfl⟩

end Sys2Proof.Machine

/-! ### Loading an image (spec/70_reset_and_hazards.md R252) -/

namespace Sys2Proof.Machine

section Load
variable {init w : Word} {ws : List Word} {a : Nat} {m m' : Memory}

theorem loadWords_cons_of_le (h : a ≤ 0xFFFF) :
    loadWords init (w :: ws) a m = loadWords init ws (a + 1) (Memory.write init m a w) := if_pos h

theorem loadWords_cons_of_gt (h : 0xFFFF < a) : loadWords init (w :: ws) a m = none := if_neg (Nat.not_le.mpr h)

/-- A load that succeeds has written its first word inside the memory and gone on with the rest. -/
theorem loadWords_cons_some (h : loadWords init (w :: ws) a m = some m') :
    a < 65536 ∧ loadWords init ws (a + 1) (Memory.write init m a w) = some m' := by
  by_cases ha : a ≤ 0xFFFF
  · exact ⟨Nat.lt_succ_of_le ha, loadWords_cons_of_le ha ▸ h⟩
  · cases (loadWords_cons_of_gt (Nat.lt_of_not_le ha)).symm.trans h

/-- The origin 65536 is what the rest of an image sees once the last cell has been written. -/
theorem loadWords_eq_none_iff (ha : a ≤ 65536) : loadWords init ws a m = none ↔ 65536 < a + ws.length := by
  induction ws generalizing a m with
  | nil => simp [loadWords, ha]
  | cons w ws ih =>
    rw [List.length_cons]
    by_cases hle : a ≤ 0xFFFF
    · rw [loadWords_cons_of_le hle, ih (Nat.succ_le_succ hle)]
      omega
    · simp only [loadWords_cons_of_gt (Nat.lt_of_not_le hle), true_iff]
      omega

theorem loadWords_wf (hm : Memory.wf init m) (h : loadWords init ws a m = some m') : Memory.wf init m' := by
  induction ws generalizing a m with
  | nil => cases h; exact hm
  | cons w ws ih =>
    obtain ⟨ha, h⟩ := loadWords_cons_some h
    exact ih (Memory.write_wf w hm ha) h

/-- Cells before the origin and from the end of the payload on read as before the load. -/
theorem loadWords_read_outside (h : loadWords init ws a m = some m') {b : Nat} (hb : b < a ∨ a + ws.length ≤ b) :
    Memory.read init m' b = Memory.read init m b := by
  induction ws generalizing a m with
  | nil => cases h; rfl
  | cons w ws ih =>
    rw [List.length_cons] at hb
    obtain ⟨-, h⟩ := loadWords_cons_some h
    rw [ih h (by omega), Memory.read_write_ne init m w (by omega)]

/-- The first word is outside what the rest of the load writes; the others are the rest's. -/
theorem loadWords_read_payload (hm : Memory.wf init m) (h : loadWords init ws a m = some m') {i : Nat}
    (hi : i < ws.length) : Memory.read init m' (a + i) = ws[i] := by
  induction ws generalizing a m i with
  | nil => cases hi
  | cons w ws ih =>
    obtain ⟨ha, h⟩ := loadWords_cons_some h
    cases i with
    | zero => exact (loadWords_read_outside h (.inl (Nat.lt_succ_self a))).trans (Memory.read_write_self init m a w hm)
    | succ i =>
      rw [← Nat.succ_add_eq_add_succ]
      exact ih (Memory.write_wf w hm ha) h (Nat.lt_of_succ_lt_succ hi)

end Load

/-- Settles O58: each cell is one of the payload's or outside it. -/
theorem loadStoresTheImage : Obligations.LoadStoresTheImage := by
  intro init ws origin m hm horigin
  refine ⟨loadWords_eq_none_iff (Nat.le_of_lt horigin), fun m' h => ⟨loadWords_wf hm h, fun a => ?_⟩⟩
  split
  case isTrue hin =>
    obtain ⟨hle, hlt⟩ := hin
    have hread := loadWords_read_payload hm h hlt
    rwa [Nat.add_sub_cancel' hle] at hread
  case isFalse hout => exact loadWords_read_outside h (by omega)

/-! ### The start of a run (spec/70_reset_and_hazards.md R250, spec/10_state.md R44) -/

theorem reset_reg (r : RegIdx) : State.reset.reg r = 0 := Vector.getElem_replicate r.isLt

/-- Nothing is listed in the memory at reset, so every cell reads `MEM_INIT`. -/
theorem rawRead_reset (a : Word) : rawRead State.reset a = 0 := rfl

/-- Settles O57: each field as `State.boot` sets it, at reset from the default parameters. -/
theorem resetValues : Obligations.ResetValues :=
  ⟨fun _ _ => ⟨rfl, rfl, rfl, rfl, rfl, rfl, rfl⟩, rfl, rfl, rfl, reset_reg, rawRead_reset⟩

theorem boot_inv {p : Config} {m : Memory} (hp : p.wf) (hm : Memory.wf p.memInit m) : (State.boot p m).Inv :=
  inv_of_idle hp hm rfl rfl

theorem default_wf : Config.default.wf := ⟨by decide, Nat.succ_ne_zero _, Nat.succ_ne_zero _⟩

theorem Memory.nil_wf (init : Word) : Memory.wf init [] := ⟨.nil, List.forall_mem_nil _⟩

/-- Settles O59: a run starts running, with nothing unfinished; reset is the boot at legal parameters, nothing loaded. -/
theorem invariantHoldsAtReset : Obligations.InvariantHoldsAtReset :=
  ⟨fun _ _ hp hm => boot_inv hp hm, boot_inv default_wf (Memory.nil_wf _)⟩

end Sys2Proof.Machine
